-- ==== Sys2Proof/Word.lean ====
section
/-! DEFINITION. The word types of UCRC: every value is an unsigned integer of a stated width (00_scope.md R7). -/

namespace Sys2Proof

/-- A command word, a response word or a CRC value: 32 bits (`u32`, `CMD_WIDTH`, `RSP_WIDTH`, `CRC_WIDTH`; R6). -/
abbrev Word := BitVec 32

/-- A dimension field: 16 bits (`u16`, `DIM_WIDTH`; R6). -/
abbrev Half := BitVec 16

/-- One byte of a frame file, or the `imm8` of a command: 8 bits (`u8`). -/
abbrev Byte := BitVec 8

/-- The four dimension registers, by name: what SETDIM's `sel` field chooses among (30_encoding.md R58). -/
inductive DimReg where
  | w | h | d | b
  deriving DecidableEq, Repr

end Sys2Proof
end

