-- ==== Sys2Proof/Syntax.lean ====
section
/-! DEFINITION. The ten commands of UCRC-1 (30_encoding.md R59), with the operands R58 gives them. -/

namespace Sys2Proof

/-- One constructor per row of spec/opcode_table.json. -/
inductive Instr where
  /-- `CLR`, format N (R82). -/
  | clr
  /-- `SETDIM sel, imm16`, format H (R83). -/
  | setdim (sel : DimReg) (imm16 : Half)
  /-- `START`, format N (R85). -/
  | start
  /-- `DATA imm8`, format B (R86). -/
  | data (imm8 : Byte)
  /-- `FINISH`, format N (R87). -/
  | finish
  /-- `RDCK`, format N (R88). -/
  | rdck
  /-- `RDCKB sel`, format S (R89). -/
  | rdckb (sel : BitVec 2)
  /-- `LDCKB imm8`, format B (R84). -/
  | ldckb (imm8 : Byte)
  /-- `CHECK`, format N (R90). -/
  | check
  /-- `RDST`, format N (R91). -/
  | rdst
  deriving DecidableEq, Repr

end Sys2Proof
end

