-- ==== Sys2Proof/Decode.lean ====
section
/-! DEFINITION. From command words to commands and back: the fields of R54 to R58, the total decoder of R60 with its named
rejections, and the encoder written from the same formats. -/

namespace Sys2Proof

/-- Why a word is illegal (30_encoding.md R61). Both raise the same fault; log entry 13. -/
inductive Illegal where
  /-- Opcode `0x00` or `0x0B` to `0xFF`. -/
  | undefinedOpcode (opcode : Byte)
  /-- A defined opcode with a nonzero "must be zero" bit. -/
  | reservedBits (opcode : Byte)
  deriving DecidableEq, Repr

/-! ### Fields (R53 to R58) -/

/-- `cw[31:24]`. -/
def fieldOpcode (cw : Word) : Byte := cw.extractLsb' 24 8

/-- `sel = cw[17:16]`. -/
def fieldSel (cw : Word) : BitVec 2 := cw.extractLsb' 16 2

/-- `imm16 = cw[15:0]`. -/
def fieldImm16 (cw : Word) : Half := cw.extractLsb' 0 16

/-- `imm8 = cw[7:0]`. -/
def fieldImm8 (cw : Word) : Byte := cw.extractLsb' 0 8

/-- Format N: `cw[23:0]` must be zero (R54). -/
def reservedZeroN (cw : Word) : Bool := cw.extractLsb' 0 24 == 0#24

/-- Format S: `cw[23:18]` and `cw[15:0]` must be zero (R55). -/
def reservedZeroS (cw : Word) : Bool := cw.extractLsb' 18 6 == 0#6 && cw.extractLsb' 0 16 == 0#16

/-- Format B: `cw[23:8]` must be zero (R56). -/
def reservedZeroB (cw : Word) : Bool := cw.extractLsb' 8 16 == 0#16

/-- Format H: `cw[23:18]` must be zero (R57). -/
def reservedZeroH (cw : Word) : Bool := cw.extractLsb' 18 6 == 0#6

/-- SETDIM's `sel` names a dimension register: 0 `W`, 1 `H`, 2 `D`, 3 `B` (R58). -/
def dimOfSel (sel : BitVec 2) : DimReg :=
  if sel = 0#2 then .w else if sel = 1#2 then .h else if sel = 2#2 then .d else .b

/-- The inverse of `dimOfSel` (R58). -/
def selOfDim : DimReg → BitVec 2
  | .w => 0#2
  | .h => 1#2
  | .d => 2#2
  | .b => 3#2

/-! ### The decoder (R60) -/

/-- The command, if the reserved bits are zero, and otherwise the named rejection. -/
def acceptIf (reservedZero : Bool) (cw : Word) (i : Instr) : Except Illegal Instr :=
  if reservedZero then .ok i else .error (.reservedBits (fieldOpcode cw))

/-- `decode(cw)` of R60: total, the same in every phase (R62). -/
def decode (cw : Word) : Except Illegal Instr :=
  match (fieldOpcode cw).toNat with
  | 0x01 => acceptIf (reservedZeroN cw) cw .clr
  | 0x02 => acceptIf (reservedZeroH cw) cw (.setdim (dimOfSel (fieldSel cw)) (fieldImm16 cw))
  | 0x03 => acceptIf (reservedZeroN cw) cw .start
  | 0x04 => acceptIf (reservedZeroB cw) cw (.data (fieldImm8 cw))
  | 0x05 => acceptIf (reservedZeroN cw) cw .finish
  | 0x06 => acceptIf (reservedZeroN cw) cw .rdck
  | 0x07 => acceptIf (reservedZeroS cw) cw (.rdckb (fieldSel cw))
  | 0x08 => acceptIf (reservedZeroB cw) cw (.ldckb (fieldImm8 cw))
  | 0x09 => acceptIf (reservedZeroN cw) cw .check
  | 0x0A => acceptIf (reservedZeroN cw) cw .rdst
  | _ => .error (.undefinedOpcode (fieldOpcode cw))

/-! ### The encoder (R54 to R57, R60 "Encoding is the inverse") -/

/-- A field at its place in the word: bit 0 of the field at bit `lo`, every other bit zero. -/
def place {k : Nat} (x : BitVec k) (lo : Nat) : Word := x.setWidth 32 <<< lo

/-- Format N: the opcode, the rest zero (R54). -/
def formatN (op : Byte) : Word := place op 24

/-- Format S: the opcode and `sel` in bits 17:16, the rest zero (R55). -/
def formatS (op : Byte) (sel : BitVec 2) : Word := place op 24 ||| place sel 16

/-- Format B: the opcode and `imm8` in bits 7:0, the rest zero (R56). -/
def formatB (op : Byte) (imm8 : Byte) : Word := place op 24 ||| place imm8 0

/-- Format H: the opcode, `sel` in bits 17:16 and `imm16` in bits 15:0, the rest zero (R57). -/
def formatH (op : Byte) (sel : BitVec 2) (imm16 : Half) : Word := place op 24 ||| place sel 16 ||| place imm16 0

/-- The command word of a command. -/
def encode : Instr → Word
  | .clr => formatN 0x01
  | .setdim sel imm16 => formatH 0x02 (selOfDim sel) imm16
  | .start => formatN 0x03
  | .data imm8 => formatB 0x04 imm8
  | .finish => formatN 0x05
  | .rdck => formatN 0x06
  | .rdckb sel => formatS 0x07 sel
  | .ldckb imm8 => formatB 0x08 imm8
  | .check => formatN 0x09
  | .rdst => formatN 0x0A

/-! ### The opcode map as data (R59) -/

/-- `match` and `mask` of a command's row: a word `cw` selects the row when `cw and mask = match`. -/
def rowOf : Instr → Word × Word
  | .clr => (0x01000000, 0xFFFFFFFF)
  | .setdim _ _ => (0x02000000, 0xFFFC0000)
  | .start => (0x03000000, 0xFFFFFFFF)
  | .data _ => (0x04000000, 0xFFFFFF00)
  | .finish => (0x05000000, 0xFFFFFFFF)
  | .rdck => (0x06000000, 0xFFFFFFFF)
  | .rdckb _ => (0x07000000, 0xFFFCFFFF)
  | .ldckb _ => (0x08000000, 0xFFFFFF00)
  | .check => (0x09000000, 0xFFFFFFFF)
  | .rdst => (0x0A000000, 0xFFFFFFFF)

/-- The ten rows of R59, in its order. -/
def opcodeRows : List (Word × Word) :=
  [rowOf .clr, rowOf (.setdim .w 0), rowOf .start, rowOf (.data 0), rowOf .finish, rowOf .rdck, rowOf (.rdckb 0),
    rowOf (.ldckb 0), rowOf .check, rowOf .rdst]

/-- The word selects the row. -/
def selectsRow (cw : Word) (row : Word × Word) : Bool := cw &&& row.2 == row.1

/-! ### The host's reading of an opcode-table word -/

/-- The command word whose bits below `nbits` are `w`'s and whose other bits are zero. Words are numbers, never serialised to
bytes (20_memory.md R43); log entry 13. -/
def tableWord (nbits w : Nat) : Word := BitVec.ofNat 32 (w % 2 ^ nbits)

/-- What the decoder reads from a word numbered as spec/opcode_table.json numbers it. -/
def decodeTableWord (nbits w : Nat) : Option Instr := (decode (tableWord nbits w)).toOption

end Sys2Proof
end

