-- ==== Sys2Proof/Config.lean ====
section
/-! DEFINITION. What an instance fixes (00_scope.md R6): the CRC parameters, the way the block is built, the frame
format's constants, and the two OPEN values no engine rule reads. None of them is state (10_state.md R11). -/

namespace Sys2Proof

/-- How the block is built (R2, R6 `IMPL`): no rule's result depends on it (R74). -/
inductive Impl where
  | bitSerial
  | tableDriven
  deriving DecidableEq, Repr, Inhabited

/-- The parameters of the engine's CRC, with the defaults of R6. UNVERIFIED (unsafe): the three values are marked by the
spec as general knowledge, decision D1; log entry 1. `impl`: DESIGN CHOICE (safe, R74); log entry 8. -/
structure CrcParams where
  /-- `CRC_POLYR`, the generator polynomial, bit-reversed. -/
  polyr : Word := 0xEDB88320
  /-- `CRC_INIT`, the working register before the first byte. -/
  init : Word := 0xFFFFFFFF
  /-- `CRC_XOROUT`, the final xor. -/
  xorout : Word := 0xFFFFFFFF
  /-- `IMPL`. -/
  impl : Impl := .bitSerial
  deriving DecidableEq, Repr, Inhabited

namespace Config

/-- The parameters of the instance this model runs: the defaults of R6. -/
def params : CrcParams := {}

/-- `CRC_POLY` in normal form, of which `CRC_POLYR` is the bit-reversal (R6, R67). -/
def crcPoly : Word := 0x04C11DB7

/-- `PREFIX_LEN`: how many zero bytes START absorbs before the payload (R6). -/
def prefixLen : Nat := 4

/-- `Z4`: the zero bytes that stand in the checksum field's own place (R7, 20_memory.md R37). -/
def zeroPrefix : List Byte := List.replicate prefixLen 0

/-- `HEADER_LEN` (R6). -/
def headerLen : Nat := 32

/-- `CKSUM_OFFSET` (R6). -/
def checksumOffset : Nat := 28

/-- `MAGIC`: OPEN, no value given (20_memory.md R35, decision D23). A free value of the host's flows; log entry 9. -/
opaque magic : Word

/-- `EPOCH`: OPEN, the instant `timestampMicros` counts from, in microseconds on some time line (R6, decision D23). A free
value; log entry 9. -/
opaque epoch : Int

end Config

end Sys2Proof
end

