-- ==== Sys2Proof/Machine/State.lean ====
section
/-! DEFINITION. The twelve registers of UCRC (10_state.md R11, R12), its two ports, the reasons a step can stop, and the state
after reset (R30). -/

namespace Sys2Proof.Machine

open Sys2Proof

/-- `PHASE` (R20): which commands are legal. All four values of the 2-bit register are used. -/
inductive Phase where
  | idle
  | run
  | done
  | fault
  deriving DecidableEq, Repr

/-- `ERRCODE` (R23, 60_exceptions.md R104): the five values that occur; 5 to 7 never do (93_implementation_defined.md U21; log
entry 6). -/
inductive ErrCode where
  | none
  | illegalCmd
  | sequence
  | sizeMismatch
  | checksumMismatch
  deriving DecidableEq, Repr

/-- The engine's twelve registers (R12). -/
structure Regs where
  /-- `W`: declared width. -/
  w : Half
  /-- `H`: declared height. -/
  h : Half
  /-- `D`: declared depth. -/
  d : Half
  /-- `B`: declared bytesPerVoxel. -/
  b : Half
  /-- `COUNT`: payload bytes absorbed since START. -/
  count : BitVec 64
  /-- `CRC`: the working register, before the final xor. -/
  crc : Word
  /-- `RESULT`: the finished checksum. -/
  result : Word
  /-- `STORED`: the declared checksum, little-endian. -/
  stored : Word
  /-- `NLD`: how many bytes of `STORED` are loaded, 0 to 4 (log entry 6). -/
  nld : Fin 5
  /-- `PHASE`. -/
  phase : Phase
  /-- `MATCH`: a CHECK found `RESULT = STORED`. -/
  matched : Bool
  /-- `ERRCODE`. -/
  errcode : ErrCode
  deriving DecidableEq, Repr

/-- What the outside world does to the engine next: it presents a command word (30_encoding.md R53) or applies hardware reset
(70_reset_and_hazards.md R123; log entry 4). -/
inductive Event where
  | command (cw : Word)
  | reset
  deriving DecidableEq, Repr

/-- The machine: the engine's registers, and the model's own record of its two ports (log entries 2 and 3). -/
structure State where
  /-- The twelve registers. -/
  regs : Regs
  /-- What the host will present, the next event first. -/
  input : List Event
  /-- The response words given, the oldest first (30_encoding.md R64, 70_reset_and_hazards.md R129). -/
  responses : List Word
  deriving DecidableEq, Repr

/-- The machine stops with no fault of this type, so it has no constructor: a fault of the engine is a NEXT state in phase
FAULT (60_exceptions.md R112), and the step is total (30_encoding.md R63). Safe. -/
inductive Fault
  deriving DecidableEq, Repr

/-- No meaning. -/
inductive Refusal where
  /-- Raised by `exec`'s arm of a command that has no meaning yet; no arm of this model does. Safe. -/
  | notModelled (mnemonic : String)
  deriving DecidableEq, Repr

/-- Every register zero, `PHASE = IDLE` (R30). -/
def Regs.reset : Regs where
  w := 0
  h := 0
  d := 0
  b := 0
  count := 0
  crc := 0
  result := 0
  stored := 0
  nld := 0
  phase := .idle
  matched := false
  errcode := .none

/-- The machine right after hardware reset: the registers of R30, nothing presented and nothing answered (log entries 2
and 3). -/
def State.reset : State where
  regs := Regs.reset
  input := []
  responses := []

end Sys2Proof.Machine
end

