-- ==== Sys2Proof/Machine/Flags.lean ====
section
/-! DEFINITION. The status view (10_state.md R24) and the codes of its fields. -/

namespace Sys2Proof.Machine

open Sys2Proof

/-- `PHASE` as its 2-bit value (R20). -/
def Phase.code : Phase → BitVec 2
  | .idle => 0
  | .run => 1
  | .done => 2
  | .fault => 3

/-- `ERRCODE` as its 3-bit value (60_exceptions.md R104). -/
def ErrCode.code : ErrCode → BitVec 3
  | .none => 0
  | .illegalCmd => 1
  | .sequence => 2
  | .sizeMismatch => 3
  | .checksumMismatch => 4

/-- `NLD` as its 3-bit value (R21). -/
def nldCode (n : Fin 5) : BitVec 3 := BitVec.ofNat 3 n.val

/-- `STATUS = zext_32({NLD[2:0], 0b0, ERRCODE[2:0], 0b0, MATCH, PHASE[1:0]})` (R24). -/
def Regs.status (r : Regs) : Word :=
  (nldCode r.nld ++ 0#1 ++ r.errcode.code ++ 0#1 ++ BitVec.ofBool r.matched ++ r.phase.code).setWidth 32

/-! The fields of a status word, as the host reads them (44_host_flows.md R95, R99). -/

/-- `st[1:0]`. -/
def statusPhase (st : Word) : BitVec 2 := st.extractLsb' 0 2

/-- `st[2]`. -/
def statusMatch (st : Word) : Bool := st.getLsbD 2

/-- `st[6:4]`. -/
def statusErr (st : Word) : BitVec 3 := st.extractLsb' 4 3

/-- `st[10:8]`. -/
def statusNld (st : Word) : BitVec 3 := st.extractLsb' 8 3

end Sys2Proof.Machine
end

