-- ==== Sys2Proof/Machine/Operands.lean ====
section
/-! DEFINITION. How the commands read and write the registers: the dimension `sel` names, the bytes of a 32-bit register in file
order, the declared length. -/

namespace Sys2Proof.Machine

open Sys2Proof

/-- `EXPECT = W * H * D * B`, the exact natural-number product (10_state.md R16, 40_crc_core.md R79). -/
def Regs.expect (r : Regs) : Nat := r.w.toNat * r.h.toNat * r.d.toNat * r.b.toNat

/-- The test `COUNT = W * H * D * B` of R36, R86 and R87: equality of exact numbers. -/
def Regs.complete (r : Regs) : Bool := r.count.toNat == r.expect

/-- The dimension register `sel` names (30_encoding.md R58). -/
def Regs.dim (r : Regs) : DimReg → Half
  | .w => r.w
  | .h => r.h
  | .d => r.d
  | .b => r.b

/-- The registers with the dimension `sel` names written (41_config_commands.md R83). -/
def Regs.withDim (r : Regs) (sel : DimReg) (v : Half) : Regs :=
  match sel with
  | .w => { r with w := v }
  | .h => { r with h := v }
  | .d => { r with d := v }
  | .b => { r with b := v }

/-- `v[8i+7:8i]`, byte `i` of a 32-bit value in file order (20_memory.md R39). -/
def byteOf (v : Word) (i : Nat) : Byte := v.extractLsb' (8 * i) 8

/-- `v` with `v[8i+7:8i]` replaced (R84). -/
def setByte (v : Word) (i : Nat) (x : Byte) : Word :=
  (v &&& ~~~(0xFF#32 <<< (8 * i))) ||| (x.setWidth 32 <<< (8 * i))

/-- `STORED` and `NLD` after the next byte is loaded (R84); called with `NLD < 4` only. -/
def Regs.loadByte (r : Regs) (x : Byte) : Regs :=
  { r with stored := setByte r.stored r.nld.val x, nld := r.nld + 1 }

end Sys2Proof.Machine
end

