-- ==== Sys2Proof/Machine/Ops.lean ====
section
/-! DEFINITION. The operations the commands share: the answer to a command, taking a fault and the return from it
(60_exceptions.md R112 to R114), and the phase guard of `exec` (30_encoding.md R63). -/

namespace Sys2Proof.Machine

open Sys2Proof

/-- The state after one command: new registers, one response word more (30_encoding.md R64). -/
def State.answer (s : State) (r : Regs) (rsp : Word) : State :=
  { s with regs := r, responses := s.responses ++ [rsp] }

/-- The command is performed: its registers and its response. -/
def respond (r : Regs) (rsp : Word) (s : State) : Host.Outcome State Fault Refusal := .next (s.answer r rsp)

/-- The registers a fault leaves: `PHASE` and `ERRCODE` written, nothing else (R112). -/
def Regs.faulted (r : Regs) (code : ErrCode) : Regs := { r with phase := .fault, errcode := code }

/-- `raise Fault(code)` (R112): taking a fault is a next state, with response 0. -/
def raiseFault (code : ErrCode) (s : State) : Host.Outcome State Fault Refusal := respond (s.regs.faulted code) 0 s

/-- A word presented in phase FAULT that is neither CLR nor RDST: no change, response 0 (R113). -/
def ignore (s : State) : Host.Outcome State Fault Refusal := respond s.regs 0 s

/-- The way out of FAULT, and the way to IDLE from any phase: the reset state of the registers, response 0 (R82, R114). -/
def clear (s : State) : Host.Outcome State Fault Refusal := respond Regs.reset 0 s

/-- The order of R63 and R111 for a decoded command other than CLR and RDST: ignored in FAULT, SEQUENCE in a phase where it is not
legal, and otherwise performed. -/
def guarded (legal : List Phase) (perform : Host.Outcome State Fault Refusal) (s : State) :
    Host.Outcome State Fault Refusal :=
  if s.regs.phase = .fault then ignore s
  else if s.regs.phase ∈ legal then perform
  else raiseFault .sequence s

/-- An illegal word (R61, R63): ignored in FAULT, and otherwise ILLEGAL_CMD whatever the phase. -/
def illegalWord (s : State) : Host.Outcome State Fault Refusal :=
  if s.regs.phase = .fault then ignore s else raiseFault .illegalCmd s

/-- Hardware reset: every register zero (70_reset_and_hazards.md R123); it is no command, so it has no response. -/
def hardwareReset (s : State) : Host.Outcome State Fault Refusal := .next { s with regs := Regs.reset }

/-- Nothing presented: "between commands the engine simply holds its state" (60_exceptions.md R122; log entry 5). -/
def holdState (s : State) : Host.Outcome State Fault Refusal := .next s

/-- The state with its next event taken from the port. -/
def State.withInput (s : State) (rest : List Event) : State := { s with input := rest }

/-- The state with one more command word in front of what the host will present. -/
def State.presenting (s : State) (cw : Word) : State := { s with input := .command cw :: s.input }

/-- The outcome of `f` after a next state; a stop stays a stop. -/
def andThen {α β : Type} (o : Host.Outcome α Fault Refusal) (f : α → Host.Outcome β Fault Refusal) :
    Host.Outcome β Fault Refusal :=
  match o with
  | .next a => f a
  | .fault r => .fault r
  | .refused r => .refused r

end Sys2Proof.Machine
end

