-- ==== Sys2Proof/Machine/ConfigCommands.lean ====
section
/-! DEFINITION. The configuration commands CLR, SETDIM, LDCKB (41_config_commands.md). -/

namespace Sys2Proof.Machine

open Sys2Proof

/-- CLR (R82): legal in all four phases, raises nothing. -/
def execClr (s : State) : Host.Outcome State Fault Refusal := clear s

/-- SETDIM `sel`, `imm16` (R83): IDLE only. -/
def execSetdim (sel : DimReg) (imm16 : Half) (s : State) : Host.Outcome State Fault Refusal :=
  guarded [.idle] (respond (s.regs.withDim sel imm16) 0 s) s

/-- LDCKB `imm8` (R84): IDLE, RUN, DONE; a fifth byte is SEQUENCE. -/
def execLdckb (imm8 : Byte) (s : State) : Host.Outcome State Fault Refusal :=
  guarded [.idle, .run, .done]
    (if s.regs.nld = 4 then raiseFault .sequence s else respond (s.regs.loadByte imm8) 0 s) s

end Sys2Proof.Machine
end

