-- ==== Sys2Proof/Machine/ResultCommands.lean ====
section
/-! DEFINITION. The result commands RDCK, RDCKB, CHECK, RDST (43_result_commands.md). -/

namespace Sys2Proof.Machine

open Sys2Proof

/-- The registers after a successful compare (R90). -/
def Regs.confirmed (r : Regs) : Regs := { r with matched := true }

/-- RDCK (R88): DONE only; responds `RESULT`. -/
def execRdck (s : State) : Host.Outcome State Fault Refusal :=
  guarded [.done] (respond s.regs s.regs.result s) s

/-- RDCKB `sel` (R89): DONE only; responds byte `sel` of `RESULT`, zero-extended. -/
def execRdckb (sel : BitVec 2) (s : State) : Host.Outcome State Fault Refusal :=
  guarded [.done] (respond s.regs ((byteOf s.regs.result sel.toNat).setWidth 32) s) s

/-- CHECK (R90): DONE only; SEQUENCE when `STORED` is not complete, CHECKSUM_MISMATCH when it differs. A flagged deviation from
the reference behaviour, as the spec says. -/
def execCheck (s : State) : Host.Outcome State Fault Refusal :=
  guarded [.done]
    (if s.regs.nld ≠ 4 then raiseFault .sequence s
     else if s.regs.result ≠ s.regs.stored then raiseFault .checksumMismatch s
     else respond s.regs.confirmed 1 s) s

/-- RDST (R91): legal in all four phases, changes nothing; responds `STATUS`. -/
def execRdst (s : State) : Host.Outcome State Fault Refusal := respond s.regs s.regs.status s

end Sys2Proof.Machine
end

