-- ==== Sys2Proof/Machine/Crc.lean ====
section
/-! DEFINITION. The CRC-32 function, bit-serial and table-driven (40_crc_core.md R68 to R73), over any parameters. -/

namespace Sys2Proof.Machine

open Sys2Proof

/-- `bitstep(c)`: one polynomial step (R68). -/
def bitstep (p : CrcParams) (c : Word) : Word :=
  (c >>> 1) ^^^ (if c.getLsbD 0 then p.polyr else 0)

/-- `bitstep` repeated `n` times. -/
def bitsteps (p : CrcParams) : Nat → Word → Word
  | 0, c => c
  | n + 1, c => bitsteps p n (bitstep p c)

/-- `absorb(c, b)`: the byte enters the low 8 bits, then eight steps (R69). -/
def absorbSerial (p : CrcParams) (c : Word) (b : Byte) : Word :=
  bitsteps p 8 (c ^^^ b.setWidth 32)

/-- One bit of the strictly bit-serial form of R69: bit `k` of the byte is xored into bit 0, then one step. -/
def absorbBit (p : CrcParams) (b : Byte) (c : Word) (k : Nat) : Word :=
  bitstep p (c ^^^ (if b.getLsbD k then 1 else 0))

/-- The strictly bit-serial form of `absorb` (R69): bits 0, 1, ..., 7 in that order. -/
def absorbBits (p : CrcParams) (c : Word) (b : Byte) : Word :=
  (List.range 8).foldl (absorbBit p b) c

/-- `T[i]`: `i` after eight steps (R72). -/
def tableEntry (p : CrcParams) (i : Byte) : Word := absorbSerial p 0 i

/-- The 256-entry table `T` (R72): a constant, regenerated from its definition. -/
def table (p : CrcParams) : Vector Word 256 := Vector.ofFn fun i => tableEntry p (BitVec.ofFin i)

/-- `absorb_t(c, b)`: one table lookup (R73). -/
def absorbTable (p : CrcParams) (c : Word) (b : Byte) : Word :=
  (table p).get ((c ^^^ b.setWidth 32).setWidth 8).toFin ^^^ (c >>> 8)

/-- One byte absorbed, the way the block is built (R2; R69 or R73). -/
def absorb (p : CrcParams) (c : Word) (b : Byte) : Word :=
  match p.impl with
  | .bitSerial => absorbSerial p c b
  | .tableDriven => absorbTable p c b

/-- `crc_absorb_all(c, m)` (R70). -/
def absorbAll (p : CrcParams) (c : Word) (m : List Byte) : Word := m.foldl (absorb p) c

/-- `crc32(m)` (R71). -/
def crc32 (p : CrcParams) (m : List Byte) : Word := absorbAll p p.init m ^^^ p.xorout

/-- The value of the header's `checksum` field: `crc32(Z4 ++ payload)` (20_memory.md R37). -/
def frameChecksum (p : CrcParams) (payload : List Byte) : Word := crc32 p (Config.zeroPrefix ++ payload)

/-- The inverse of `bitstep` when `CRC_POLYR[31] = 1` (R76). -/
def bitstepInv (p : CrcParams) (r : Word) : Word :=
  ((r ^^^ (if r.getLsbD 31 then p.polyr else 0)) <<< 1) ||| (if r.getLsbD 31 then 1 else 0)

end Sys2Proof.Machine
end

