-- ==== Sys2Proof/Machine/StreamCommands.lean ====
section
/-! DEFINITION. The streaming commands START, DATA, FINISH (42_stream_commands.md). -/

namespace Sys2Proof.Machine

open Sys2Proof

/-- The registers after START: the zero prefix absorbed, no payload byte counted (R85). -/
def Regs.started (r : Regs) : Regs :=
  { r with crc := absorbAll Config.params Config.params.init Config.zeroPrefix, count := 0, phase := .run }

/-- The registers after one payload byte (R86). `COUNT` is 64 bits wide; log entry 7. -/
def Regs.absorbed (r : Regs) (b : Byte) : Regs :=
  { r with crc := absorb Config.params r.crc b, count := r.count + 1 }

/-- The registers after the scope is closed (R87). -/
def Regs.finished (r : Regs) : Regs := { r with result := r.crc ^^^ Config.params.xorout, phase := .done }

/-- START (R85): IDLE only. -/
def execStart (s : State) : Host.Outcome State Fault Refusal :=
  guarded [.idle] (respond s.regs.started 0 s) s

/-- DATA `imm8` (R86): RUN only; SIZE_MISMATCH on a surplus byte. -/
def execData (imm8 : Byte) (s : State) : Host.Outcome State Fault Refusal :=
  guarded [.run]
    (if s.regs.complete then raiseFault .sizeMismatch s else respond (s.regs.absorbed imm8) 0 s) s

/-- FINISH (R87): RUN only; SIZE_MISMATCH when the payload is short. -/
def execFinish (s : State) : Host.Outcome State Fault Refusal :=
  guarded [.run]
    (if s.regs.complete then respond s.regs.finished 0 s else raiseFault .sizeMismatch s) s

end Sys2Proof.Machine
end

