-- ==== Sys2Proof/Machine/Dispatch.lean ====
section
/-! DEFINITION. One arm per command. -/

namespace Sys2Proof.Machine

open Sys2Proof

def exec (i : Instr) (s : State) : Host.Outcome State Fault Refusal :=
  match i with
  | .clr => Sys2Proof.Machine.execClr s
  | .setdim sel imm16 => Sys2Proof.Machine.execSetdim sel imm16 s
  | .start => Sys2Proof.Machine.execStart s
  | .data imm8 => Sys2Proof.Machine.execData imm8 s
  | .finish => Sys2Proof.Machine.execFinish s
  | .rdck => Sys2Proof.Machine.execRdck s
  | .rdckb sel => Sys2Proof.Machine.execRdckb sel s
  | .ldckb imm8 => Sys2Proof.Machine.execLdckb imm8 s
  | .check => Sys2Proof.Machine.execCheck s
  | .rdst => Sys2Proof.Machine.execRdst s

end Sys2Proof.Machine
end

