-- ==== Sys2Proof/Machine/Perform.lean ====
section
/-! DEFINITION. What one event of the host's stream does: `exec(s, cw)` of 30_encoding.md R63 for a command word, hardware
reset (70_reset_and_hazards.md R123). -/

namespace Sys2Proof.Machine

open Sys2Proof

/-- `exec(s, cw)` (R63): decode, then the command or the illegal word. -/
def performWord (cw : Word) (s : State) : Host.Outcome State Fault Refusal :=
  match decode cw with
  | .ok i => exec i s
  | .error _ => illegalWord s

/-- The effect of an event already taken from the port. -/
def performEvent (e : Event) (s : State) : Host.Outcome State Fault Refusal :=
  match e with
  | .command cw => performWord cw s
  | .reset => hardwareReset s

end Sys2Proof.Machine
end

