-- ==== Sys2Proof/Machine/Step.lean ====
section
/-! DEFINITION. One step: the next event of the host's stream, to completion (20_memory.md R47). -/

namespace Sys2Proof.Machine

open Sys2Proof

/-- One step of the machine. -/
def step (s : State) : Host.Outcome State Fault Refusal :=
  match s.input with
  | [] => holdState s
  | e :: rest => performEvent e (s.withInput rest)

/-- The state whose next step takes exactly this command word: the word in front of what the host will present (log
entry 2). -/
def State.withFetchWord (s : State) (nbits w : Nat) : State := s.presenting (tableWord nbits w)

end Sys2Proof.Machine
end

