-- ==== Sys2Proof/Assembly.lean ====
section
/-! DEFINITION. One line of the spec's assembly language (30_encoding.md R65) or one of the pseudo-instructions that expand
to a fixed command list (R66), its operands as the numbers that were written. -/

namespace Sys2Proof

/-- An assembly statement: a mnemonic with its operands, not yet checked for range. -/
inductive Asm where
  | clr
  | setdim (sel : DimReg) (n : Nat)
  | start
  | data (b : Nat)
  | finish
  | rdck
  | rdckb (i : Nat)
  | ldckb (b : Nat)
  | check
  | rdst
  /-- `SETDIMS w, h, d, b` (44_host_flows.md R92). -/
  | setdims (w h d b : Nat)
  /-- `PAYLOAD b0, ..., b(n-1)` (R93). -/
  | payload (bs : List Nat)
  /-- `LDCK v` (R94). -/
  | ldck (v : Nat)
  deriving DecidableEq, Repr

/-- The assembly statement that stands for one command. -/
def Instr.toAsm : Instr → Asm
  | .clr => .clr
  | .setdim sel imm16 => .setdim sel imm16.toNat
  | .start => .start
  | .data imm8 => .data imm8.toNat
  | .finish => .finish
  | .rdck => .rdck
  | .rdckb sel => .rdckb sel.toNat
  | .ldckb imm8 => .ldckb imm8.toNat
  | .check => .check
  | .rdst => .rdst

end Sys2Proof
end

