-- ==== Sys2Proof/Machine/Run.lean ====
section
/-! DEFINITION. Runs: a finite list of command words from a given state, with the list of responses
(70_reset_and_hazards.md R129, 20_memory.md R48), and the pseudo-instructions that expand to fixed command lists
(44_host_flows.md R92 to R94). -/

namespace Sys2Proof.Machine

open Sys2Proof

/-- One command word presented now, before anything else the host will present, and performed to completion. -/
def present (cw : Word) (s : State) : Host.Outcome State Fault Refusal := step (s.presenting cw)

/-- Command words presented one after another, each after the previous response: the left fold of R48. -/
def presentAll : List Word → State → Host.Outcome State Fault Refusal
  | [], s => .next s
  | cw :: cws, s => andThen (present cw s) (presentAll cws)

/-- A list of commands, as their words. -/
def issue (is : List Instr) (s : State) : Host.Outcome State Fault Refusal := presentAll (is.map encode) s

/-- `k` steps on the host's own stream. -/
def runSteps : Nat → State → Host.Outcome State Fault Refusal
  | 0, s => .next s
  | k + 1, s => andThen (step s) (runSteps k)

/-- The response to the command performed last. -/
def lastResponse (s : State) : Word := s.responses.getLastD 0

/-- The responses to the last `n` commands, the oldest first. -/
def lastResponses (n : Nat) (s : State) : List Word := s.responses.drop (s.responses.length - n)

/-- `SETDIMS w, h, d, b` (R92). -/
def setdims (w h d b : Half) : List Instr := [.setdim .w w, .setdim .h h, .setdim .d d, .setdim .b b]

/-- `PAYLOAD b0, ..., b(n-1)` (R93). -/
def payloadCommands (bs : List Byte) : List Instr := bs.map .data

/-- `LDCK v` (R94). -/
def ldck (v : Word) : List Instr :=
  [.ldckb (v.extractLsb' 0 8), .ldckb (v.extractLsb' 8 8), .ldckb (v.extractLsb' 16 8), .ldckb (v.extractLsb' 24 8)]

end Sys2Proof.Machine
end

