-- ==== Sys2Proof/WellFormed.lean ====
section
/-! DEFINITION. Which statements assemble: "An operand out of range is an assembly-time error, not an encoding"
(30_encoding.md R65). -/

namespace Sys2Proof

/-- Every operand is in the range R65 and R92 to R94 give it. -/
def Asm.wellFormed : Asm → Bool
  | .clr => true
  | .setdim _ n => decide (n ≤ 65535)
  | .start => true
  | .data b => decide (b ≤ 255)
  | .finish => true
  | .rdck => true
  | .rdckb i => decide (i ≤ 3)
  | .ldckb b => decide (b ≤ 255)
  | .check => true
  | .rdst => true
  | .setdims w h d b => decide (w ≤ 65535) && decide (h ≤ 65535) && decide (d ≤ 65535) && decide (b ≤ 65535)
  | .payload bs => bs.all fun b => decide (b ≤ 255)
  | .ldck v => decide (v ≤ 4294967295)

/-- A command is well-formed when its assembly statement is. The operand types of `Instr` are exactly R58's ranges, so every
`Instr` is (Sys2Proof/Laws/PerInstr.lean). -/
def Instr.wellFormed (i : Instr) : Bool := i.toAsm.wellFormed

end Sys2Proof
end

