-- ==== Sys2Proof/Machine/Assembler.lean ====
section
/-! DEFINITION. The spec's assembly language (30_encoding.md R65, R66): from the text of a line to command words. The spacing it
allows is log entry 11. -/

namespace Sys2Proof.Machine

open Sys2Proof

/-- The commands a statement stands for; nothing when an operand is out of range (R65, R92 to R94). -/
def expandAsm (a : Asm) : Option (List Instr) :=
  if a.wellFormed then
    some <| match a with
      | .clr => [.clr]
      | .setdim sel n => [.setdim sel (BitVec.ofNat 16 n)]
      | .start => [.start]
      | .data b => [.data (BitVec.ofNat 8 b)]
      | .finish => [.finish]
      | .rdck => [.rdck]
      | .rdckb i => [.rdckb (BitVec.ofNat 2 i)]
      | .ldckb b => [.ldckb (BitVec.ofNat 8 b)]
      | .check => [.check]
      | .rdst => [.rdst]
      | .setdims w h d b => setdims (BitVec.ofNat 16 w) (BitVec.ofNat 16 h) (BitVec.ofNat 16 d) (BitVec.ofNat 16 b)
      | .payload bs => payloadCommands (bs.map (BitVec.ofNat 8))
      | .ldck v => ldck (BitVec.ofNat 32 v)
  else none

/-- The command words of a statement. -/
def assemble (a : Asm) : Option (List Word) := (expandAsm a).map fun is => is.map encode

/-! ### The text of a line -/

/-- A space or a tab. -/
def isSpacing (c : Char) : Bool := c == ' ' || c == '\t'

/-- The text without spacing at either end. -/
def trimSpacing (cs : List Char) : List Char := ((cs.dropWhile isSpacing).reverse.dropWhile isSpacing).reverse

/-- The pieces between the separators; one piece when there is none. -/
def splitAtChar (sep : Char) : List Char → List (List Char)
  | [] => [[]]
  | c :: cs =>
    match splitAtChar sep cs with
    | [] => [[c]]
    | piece :: rest => if c == sep then [] :: piece :: rest else (c :: piece) :: rest

/-- The value of a hexadecimal digit, in either case. -/
def digitValue (c : Char) : Option Nat :=
  if '0' ≤ c ∧ c ≤ '9' then some (c.toNat - 48)
  else if 'A' ≤ c ∧ c ≤ 'F' then some (c.toNat - 55)
  else if 'a' ≤ c ∧ c ≤ 'f' then some (c.toNat - 87)
  else none

/-- The digits of a number in a base, on top of what was read so far. Every character must be a digit: that `_` is no separator in
assembly text is a DESIGN CHOICE (safe), log entry 11. -/
def digitsFrom (base : Nat) : Nat → List Char → Option Nat
  | acc, [] => some acc
  | acc, c :: cs =>
    match digitValue c with
    | some v => if v < base then digitsFrom base (acc * base + v) cs else none
    | none => none

/-- A number, decimal or `0x` hexadecimal (R65). -/
def parseNumber (cs : List Char) : Option Nat :=
  match cs with
  | [] => none
  | ['0', 'x'] => none
  | '0' :: 'x' :: ds => digitsFrom 16 0 ds
  | ds => digitsFrom 10 0 ds

/-- SETDIM's selector, the register name (R65). -/
def parseDim (cs : List Char) : Option DimReg :=
  match cs with
  | ['W'] => some .w
  | ['H'] => some .h
  | ['D'] => some .d
  | ['B'] => some .b
  | _ => none

/-- Every operand as a number, when every one is. -/
def parseNumbers : List (List Char) → Option (List Nat)
  | [] => some []
  | cs :: rest =>
    match parseNumber cs, parseNumbers rest with
    | some n, some ns => some (n :: ns)
    | _, _ => none

/-- A statement of numbers only, by its mnemonic. -/
def statementOfNumbers (mnemonic : List Char) (ns : List Nat) : Option Asm :=
  if mnemonic = "PAYLOAD".toList then some (.payload ns)
  else match ns with
    | [] =>
      if mnemonic = "CLR".toList then some .clr
      else if mnemonic = "START".toList then some .start
      else if mnemonic = "FINISH".toList then some .finish
      else if mnemonic = "RDCK".toList then some .rdck
      else if mnemonic = "CHECK".toList then some .check
      else if mnemonic = "RDST".toList then some .rdst
      else none
    | [n] =>
      if mnemonic = "DATA".toList then some (.data n)
      else if mnemonic = "RDCKB".toList then some (.rdckb n)
      else if mnemonic = "LDCKB".toList then some (.ldckb n)
      else if mnemonic = "LDCK".toList then some (.ldck n)
      else none
    | [w, h, d, b] => if mnemonic = "SETDIMS".toList then some (.setdims w h d b) else none
    | _ => none

/-- A statement from its mnemonic and operands. -/
def parseStatement (mnemonic : List Char) (operands : List (List Char)) : Option Asm :=
  if mnemonic = "SETDIM".toList then
    match operands with
    | [r, n] =>
      match parseDim r, parseNumber n with
      | some sel, some v => some (.setdim sel v)
      | _, _ => none
    | _ => none
  else match parseNumbers operands with
    | some ns => statementOfNumbers mnemonic ns
    | none => none

/-- What a line holds. -/
inductive Line where
  /-- Nothing but spacing and a comment. -/
  | blank
  | statement (a : Asm)
  /-- Not of the form R65 gives. -/
  | malformed
  deriving DecidableEq, Repr

/-- One line: a mnemonic, then comma-separated operands; `;` starts a comment (R65). -/
def parseLine (line : List Char) : Line :=
  match trimSpacing (line.takeWhile fun c => c != ';') with
  | [] => .blank
  | body =>
    let operands := trimSpacing (body.dropWhile fun c => !isSpacing c)
    let pieces := if operands = [] then [] else (splitAtChar ',' operands).map trimSpacing
    match parseStatement (body.takeWhile fun c => !isSpacing c) pieces with
    | some a => .statement a
    | none => .malformed

/-- The command words of one line; nothing on an error. -/
def assembleLine (line : List Char) : Option (List Word) :=
  match parseLine line with
  | .blank => some []
  | .statement a => assemble a
  | .malformed => none

/-- The words of every line in order; nothing when a line is in error. -/
def assembleLines : List (List Char) → Option (List Word)
  | [] => some []
  | line :: lines =>
    match assembleLine line, assembleLines lines with
    | some ws, some rest => some (ws ++ rest)
    | _, _ => none

/-- A program's text: one command per line (R65). -/
def assembleText (text : List Char) : Option (List Word) := assembleLines (splitAtChar '\n' text)

end Sys2Proof.Machine
end

