-- ==== Sys2Proof/Machine/Frame.lean ====
section
/-! DEFINITION. The ULTRA frame file the host holds: header layout, byte order, the host's reads (20_memory.md R31 to R34;
44_host_flows.md R96). The engine never sees it (R42). -/

namespace Sys2Proof.Machine

open Sys2Proof

/-- One row of R31's table: where a header field stands. -/
structure HeaderField where
  offset : Nat
  size : Nat
  name : String
  deriving DecidableEq, Repr

/-- R31's table. -/
def headerFields : List HeaderField :=
  [⟨0, 4, "magic"⟩, ⟨4, 2, "width"⟩, ⟨6, 2, "height"⟩, ⟨8, 2, "depth"⟩, ⟨10, 2, "bytesPerVoxel"⟩, ⟨12, 4, "frameNumber"⟩,
    ⟨16, 8, "timestampMicros"⟩, ⟨24, 4, "reserved"⟩, ⟨28, 4, "checksum"⟩]

/-- The FrameHeader's fields with their types (R31). -/
structure FrameHeader where
  magic : BitVec 32
  width : Half
  height : Half
  depth : Half
  bytesPerVoxel : Half
  frameNumber : BitVec 32
  timestampMicros : BitVec 64
  reserved : BitVec 32
  checksum : BitVec 32
  deriving DecidableEq, Repr

/-- A value as `n` bytes, the least significant first: byte `i` is `v[8i+7:8i]` (R32). -/
def leBytes {k : Nat} (n : Nat) (v : BitVec k) : List Byte := (List.range n).map fun i => v.extractLsb' (8 * i) 8

/-- The value of bytes, the least significant first: the sum of `byte[i] * 256^i` (R32). -/
def leValue : List Byte → Nat
  | [] => 0
  | b :: bs => b.toNat + 256 * leValue bs

/-- The host's `MemRead(o, n)`: `n` bytes at offset `o` of the file (00_scope.md R8). -/
def memRead (bytes : List Byte) (o n : Nat) : List Byte := (bytes.drop o).take n

/-- The field of `k` bits at offset `o`, `n` bytes long (R32). -/
def readField (k : Nat) (bytes : List Byte) (o n : Nat) : BitVec k := BitVec.ofNat k (leValue (memRead bytes o n))

/-- The header's 32 bytes (R31, R32). -/
def FrameHeader.toBytes (f : FrameHeader) : List Byte :=
  leBytes 4 f.magic ++ leBytes 2 f.width ++ leBytes 2 f.height ++ leBytes 2 f.depth ++ leBytes 2 f.bytesPerVoxel ++
    leBytes 4 f.frameNumber ++ leBytes 8 f.timestampMicros ++ leBytes 4 f.reserved ++ leBytes 4 f.checksum

/-- Parsing: total on any bytes (R96; 90_conflicts.md C3). -/
def FrameHeader.ofBytes (bytes : List Byte) : FrameHeader where
  magic := readField 32 bytes 0 4
  width := readField 16 bytes 4 2
  height := readField 16 bytes 6 2
  depth := readField 16 bytes 8 2
  bytesPerVoxel := readField 16 bytes 10 2
  frameNumber := readField 32 bytes 12 4
  timestampMicros := readField 64 bytes 16 8
  reserved := readField 32 bytes 24 4
  checksum := readField 32 bytes 28 4

/-- The declared payload length, the exact product (R36, R79). -/
def FrameHeader.payloadLength (f : FrameHeader) : Nat :=
  f.width.toNat * f.height.toNat * f.depth.toNat * f.bytesPerVoxel.toNat

/-- When the frame was taken, in microseconds on `EPOCH`'s time line (R31 "microseconds since a fixed epoch"). -/
def FrameHeader.captureTime (f : FrameHeader) : Int := Config.epoch + f.timestampMicros.toNat

/-- The bytes after the header (R34). -/
def payloadOf (bytes : List Byte) : List Byte := bytes.drop Config.headerLen

/-- The errors of the host's flows (60_exceptions.md R109). -/
inductive HostError where
  /-- `CorruptHeaderError`: fewer than 32 bytes (R97). -/
  | corruptHeader
  /-- `SizeMismatchError` (R107). -/
  | sizeMismatch
  /-- `ChecksumMismatchError`, the flagged enhancement (R108). -/
  | checksumMismatch
  /-- A status that none of the flow's cases names; log entry 10. -/
  | unexpectedStatus (st : Word)
  deriving DecidableEq, Repr

/-- `decode(bytes)` (R96, R97): the header, magic unvalidated, and the payload. The length check is host arithmetic and no engine
command, where R96 allows either: DESIGN CHOICE (safe), log entry 10. -/
def decodeFile (bytes : List Byte) : Except HostError (FrameHeader × List Byte) :=
  if bytes.length < Config.headerLen then .error .corruptHeader
  else if (payloadOf bytes).length = (FrameHeader.ofBytes bytes).payloadLength then
    .ok (FrameHeader.ofBytes bytes, payloadOf bytes)
  else .error .sizeMismatch

/-- What `verify` reports (R98). -/
structure VerifyReport where
  magicOk : Bool
  sizeOk : Bool
  declaredChecksum : BitVec 32
  deriving DecidableEq, Repr

/-- `VERIFY_REF` (R98): the reference verify; it uses no engine command and no CRC. -/
def verifyRef (bytes : List Byte) : Except HostError VerifyReport :=
  if bytes.length < Config.headerLen then .error .corruptHeader
  else .ok {
    magicOk := (FrameHeader.ofBytes bytes).magic == Config.magic
    sizeOk := bytes.length - Config.headerLen == (FrameHeader.ofBytes bytes).payloadLength
    declaredChecksum := (FrameHeader.ofBytes bytes).checksum }

end Sys2Proof.Machine
end

