-- ==== Sys2Proof/Machine/Flows.lean ====
section
/-! DEFINITION. The host flows that drive the engine: CKSUM_ENCODE and VERIFY_STRICT (44_host_flows.md R95, R99). A flow answers
the engine's state at its end and what the host gives its caller. -/

namespace Sys2Proof.Machine

open Sys2Proof

/-- The arguments of `encode(...)` (R95). -/
structure EncodeArgs where
  frameNumber : BitVec 32
  timestampMicros : BitVec 64
  width : Half
  height : Half
  depth : Half
  bytesPerVoxel : Half
  payload : List Byte
  deriving DecidableEq, Repr

/-- The header the host builds, with the given checksum; `reserved` is "always zero" (R95, 20_memory.md R31). -/
def EncodeArgs.header (a : EncodeArgs) (checksum : BitVec 32) : FrameHeader where
  magic := Config.magic
  width := a.width
  height := a.height
  depth := a.depth
  bytesPerVoxel := a.bytesPerVoxel
  frameNumber := a.frameNumber
  timestampMicros := a.timestampMicros
  reserved := 0
  checksum := checksum

/-- The declared payload length. -/
def EncodeArgs.declaredLength (a : EncodeArgs) : Nat :=
  a.width.toNat * a.height.toNat * a.depth.toNat * a.bytesPerVoxel.toNat

/-- The host's `MemWrite(o, n, v)` on bytes it holds (00_scope.md R8). -/
def memWrite (bytes : List Byte) (o : Nat) (v : List Byte) : List Byte := bytes.take o ++ v ++ bytes.drop (o + v.length)

/-- `CKSUM_ENCODE` up to its status read (R95). -/
def encodeCommands (a : EncodeArgs) : List Instr :=
  [.clr] ++ setdims a.width a.height a.depth a.bytesPerVoxel ++ [.start] ++ payloadCommands a.payload ++ [.finish, .rdst]

/-- The four reads of the finished checksum, in file order (R95). R95 allows one RDCK instead: DESIGN CHOICE (safe), log
entry 10. -/
def checksumReads : List Instr := [.rdckb 0, .rdckb 1, .rdckb 2, .rdckb 3]

/-- `CKSUM_ENCODE` (R95): build the header with a zero checksum, let the engine compute, put the four bytes in place; a size
error gives no output (log entry 10). -/
def cksumEncode (a : EncodeArgs) (s : State) :
    Host.Outcome (State × Except HostError (List Byte)) Fault Refusal :=
  andThen (issue (encodeCommands a) s) fun t =>
    if statusPhase (lastResponse t) = 3 then
      .next (t, .error (if statusErr (lastResponse t) = 3 then .sizeMismatch else .unexpectedStatus (lastResponse t)))
    else
      andThen (issue checksumReads t) fun u =>
        andThen (issue [.clr] u) fun v =>
          .next (v, .ok (memWrite (a.header 0).toBytes Config.checksumOffset
            ((lastResponses 4 u).map fun rsp => rsp.setWidth 8) ++ a.payload))

/-- What the strict verify reports: the reference's report, and that the checksum agrees (R99). -/
structure StrictReport where
  report : VerifyReport
  checksumOk : Bool
  deriving DecidableEq, Repr

/-- `VERIFY_STRICT` up to its status read (R99): file bytes 4 to 11 as dimensions, 28 to 31 as they stand, then the payload. -/
def verifyCommands (bytes : List Byte) : List Instr :=
  [.clr] ++ setdims (FrameHeader.ofBytes bytes).width (FrameHeader.ofBytes bytes).height (FrameHeader.ofBytes bytes).depth
      (FrameHeader.ofBytes bytes).bytesPerVoxel ++
    (memRead bytes Config.checksumOffset 4).map .ldckb ++ [.start] ++ payloadCommands (payloadOf bytes) ++
    [.finish, .check, .rdst]

/-- The host's reading of the status (R99). That an error drops the report `r` is a DESIGN CHOICE (safe), log entry 10. -/
def strictVerdict (r : VerifyReport) (st : Word) : Except HostError StrictReport :=
  if statusPhase st = 2 ∧ statusMatch st = true then .ok { report := r, checksumOk := true }
  else if statusPhase st = 3 ∧ statusErr st = 3 then .error .sizeMismatch
  else if statusPhase st = 3 ∧ statusErr st = 4 then .error .checksumMismatch
  else .error (.unexpectedStatus st)

/-- `VERIFY_STRICT` (R99), a flagged deviation from the reference: recompute and compare. -/
def verifyStrict (bytes : List Byte) (s : State) :
    Host.Outcome (State × Except HostError StrictReport) Fault Refusal :=
  match verifyRef bytes with
  | .error e => .next (s, .error e)
  | .ok r =>
    andThen (issue (verifyCommands bytes) s) fun t =>
      andThen (issue [.clr] t) fun u => .next (u, strictVerdict r (lastResponse t))

end Sys2Proof.Machine
end

