-- ==== Sys2Proof/Machine/System.lean ====
section
/-! DEFINITION. Several instances side by side (60_exceptions.md R120): a product of independent machines and a schedule that
says which one takes the next step. -/

namespace Sys2Proof.Machine

open Sys2Proof

/-- `N_INSTANCES` machines, each with its own registers and its own stream. -/
abbrev System := List State

/-- Instance `k` takes a step; the others do nothing. An index that names no instance changes nothing. -/
def System.stepAt (k : Nat) (sys : System) : Host.Outcome System Fault Refusal :=
  match sys[k]? with
  | none => .next sys
  | some s => andThen (step s) fun t => .next (sys.set k t)

/-- The instances step in the order a schedule gives. -/
def System.runSchedule : List Nat → System → Host.Outcome System Fault Refusal
  | [], sys => .next sys
  | k :: ks, sys => andThen (System.stepAt k sys) (System.runSchedule ks)

end Sys2Proof.Machine
end

