-- ==== Sys2Proof/Safety.lean ====
section
/-! DEFINITION. The terms the claims use: the invariants of 10_state.md R28, the payload bytes given so far as a ghost, and how a
run ends (70_reset_and_hazards.md R129). -/

namespace Sys2Proof.Machine

open Sys2Proof

/-- R28's invariants, of the registers and the payload bytes `p` given since START. The type of `NLD` and of `ERRCODE` already
excludes the values of its item 1. -/
structure Regs.Tracks (r : Regs) (p : List Byte) : Prop where
  /-- Item 2: `PHASE = FAULT` exactly when `ERRCODE != 0`. -/
  fault_iff : r.phase = .fault ↔ r.errcode ≠ .none
  /-- Item 3. -/
  idle : r.phase = .idle → r.count = 0 ∧ r.crc = 0 ∧ r.result = 0 ∧ r.matched = false
  /-- Item 4. -/
  run : r.phase = .run → r.count.toNat = p.length ∧ p.length ≤ r.expect ∧ r.result = 0 ∧ r.matched = false ∧
    r.crc = absorbAll Config.params Config.params.init (Config.zeroPrefix ++ p)
  /-- Item 5. -/
  done : r.phase = .done → r.count.toNat = p.length ∧ p.length = r.expect ∧ r.result = frameChecksum Config.params p
  /-- R19 in phase FAULT: no checksum, or the finished one of the same frame. -/
  fault : r.phase = .fault → r.result = 0 ∨ (p.length = r.expect ∧ r.result = frameChecksum Config.params p)
  /-- Item 6: a match is of a complete stored checksum, equal to that of a finished frame. -/
  matched : r.matched = true → r.nld = 4 ∧ r.result = r.stored ∧ p.length = r.expect ∧
    r.result = frameChecksum Config.params p
  /-- Item 7: the bytes of `STORED` not loaded are zero (nothing is claimed when all four are loaded). -/
  unloaded : r.stored >>> (8 * r.nld.val) = 0

/-- The payload bytes given since START, after one more event: a ghost, no state of the machine. -/
def payloadAfter (e : Event) (r : Regs) (p : List Byte) : List Byte :=
  match e with
  | .reset => []
  | .command cw =>
    match decode cw with
    | .ok .clr => []
    | .ok .start => if r.phase = .idle then [] else p
    | .ok (.data b) => if r.phase = .run ∧ r.complete = false then p ++ [b] else p
    | _ => p

/-- How a run ends (R129): a flow succeeds in DONE, fails in FAULT, and is unfinished in RUN. -/
inductive RunEnd where
  | succeeded
  | failed
  | unfinished
  /-- `PHASE = IDLE`, which R129 does not class: DESIGN CHOICE (safe), log entry 16. -/
  | notStarted
  deriving DecidableEq, Repr

/-- The end a state is in; a finished flow's final CLR leads to `notStarted` too (log entry 16). R129 judges a flow before it. -/
def Regs.runEnd (r : Regs) : RunEnd :=
  match r.phase with
  | .idle => .notStarted
  | .run => .unfinished
  | .done => .succeeded
  | .fault => .failed

/-- A strict verify also needs `MATCH = 1` (R129). -/
def Regs.strictlyVerified (r : Regs) : Bool := r.runEnd == .succeeded && r.matched

/-- The frame protocol of 70_reset_and_hazards.md R126 between START and FINISH: DATA, LDCKB and RDST in any order. -/
def isFrameBody : Instr → Bool
  | .data _ => true
  | .ldckb _ => true
  | .rdst => true
  | _ => false

/-- The payload bytes of a command list, in order. -/
def payloadBytes (is : List Instr) : List Byte :=
  is.filterMap fun i => match i with
    | .data b => some b
    | _ => none

/-- The stored-checksum bytes of a command list, in order. -/
def storedBytes (is : List Instr) : List Byte :=
  is.filterMap fun i => match i with
    | .ldckb b => some b
    | _ => none

end Sys2Proof.Machine
end

