-- ==== Sys2Proof/Certificates/Slice0/Obligations.lean ====
section
/-! DEFINITION. The statements about UCRC, each from a rule of spec/. The next states are written out field by field, so that a
statement is also the frame of its command: what it does not name is unchanged. -/

open Sys2Proof Sys2Proof.Machine

namespace Sys2Proof.Claims

/-- R59's rows, written out: (`match`, `mask`). -/
def opcodeMap : List (Word × Word) :=
  [(0x01000000, 0xFFFFFFFF), (0x02000000, 0xFFFC0000), (0x03000000, 0xFFFFFFFF), (0x04000000, 0xFFFFFF00),
    (0x05000000, 0xFFFFFFFF), (0x06000000, 0xFFFFFFFF), (0x07000000, 0xFFFCFFFF), (0x08000000, 0xFFFFFF00),
    (0x09000000, 0xFFFFFFFF), (0x0A000000, 0xFFFFFFFF)]

/-- R59's "legal in phases" column. -/
def legalPhases : Instr → List Phase
  | .clr => [.idle, .run, .done, .fault]
  | .setdim _ _ => [.idle]
  | .start => [.idle]
  | .data _ => [.run]
  | .finish => [.run]
  | .rdck => [.done]
  | .rdckb _ => [.done]
  | .ldckb _ => [.idle, .run, .done]
  | .check => [.done]
  | .rdst => [.idle, .run, .done, .fault]

/-- The command's own checks in the order of its pseudocode (60_exceptions.md R111 item 4). -/
def ownFault (i : Instr) (r : Regs) : Option ErrCode :=
  match i with
  | .ldckb _ => if r.nld.val = 4 then some .sequence else none
  | .check =>
    if r.nld.val ≠ 4 then some .sequence else if r.result ≠ r.stored then some .checksumMismatch else none
  | .data _ =>
    if r.count.toNat = r.w.toNat * r.h.toNat * r.d.toNat * r.b.toNat then some .sizeMismatch else none
  | .finish =>
    if r.count.toNat ≠ r.w.toNat * r.h.toNat * r.d.toNat * r.b.toNat then some .sizeMismatch else none
  | _ => none

/-- The fault R111 says a word raises outside FAULT. -/
def firstFault (cw : Word) (r : Regs) : Option ErrCode :=
  match decode cw with
  | .error _ => some .illegalCmd
  | .ok i => if r.phase ∉ legalPhases i then some .sequence else ownFault i r

/-- The response R113 gives a word in phase FAULT: STATUS for RDST, 0 for every other word. -/
def responseInFault (r : Regs) (cw : Word) : Word :=
  match decode cw with
  | .ok .rdst => r.status
  | _ => 0

end Sys2Proof.Claims

open Sys2Proof.Claims

/-- CLR makes every register zero from any state, only the word 0x01000000 is CLR, and no other command leaves FAULT or
DONE but by a fault. Formalises R82. -/
def Obligations.ClrRestoresResetState : Prop :=
  (encode .clr = 0x01000000#32) ∧
  (∀ s : State, exec .clr s = .next { s with
    regs := { w := 0, h := 0, d := 0, b := 0, count := 0, crc := 0, result := 0, stored := 0, nld := 0, phase := .idle,
              matched := false, errcode := .none }
    responses := s.responses ++ [0] }) ∧
  (∀ cw : Word, cw.extractLsb' 24 8 = 0x01#8 → cw ≠ 0x01000000#32 → ∃ e, decode cw = .error e) ∧
  (∀ cw : Word, decode cw = .ok .clr → cw = 0x01000000#32) ∧
  (∀ (i : Instr) (s t : State), i ≠ .clr → exec i s = .next t →
    (s.regs.phase = .fault → t.regs.phase = .fault) ∧
    (s.regs.phase = .done → t.regs.phase = .done ∨ t.regs.phase = .fault))

/-- SETDIM loads the dimension sel names in IDLE, faults with SEQUENCE in RUN and DONE. Formalises R83. -/
def Obligations.SetdimLoadsDeclaredDimension : Prop :=
  ∀ (sel : DimReg) (imm16 : Half) (s : State),
    (encode (.setdim sel imm16) = 0x02000000#32 |||
      ((match sel with | .w => 0#32 | .h => 1#32 | .d => 2#32 | .b => 3#32 : Word) <<< 16) ||| imm16.setWidth 32) ∧
    (s.regs.phase = .idle → exec (.setdim sel imm16) s = .next { s with
      regs := (match sel with
        | .w => { s.regs with w := imm16 }
        | .h => { s.regs with h := imm16 }
        | .d => { s.regs with d := imm16 }
        | .b => { s.regs with b := imm16 })
      responses := s.responses ++ [0] }) ∧
    (s.regs.phase = .run ∨ s.regs.phase = .done → exec (.setdim sel imm16) s =
      .next { s with regs := { s.regs with phase := .fault, errcode := .sequence }, responses := s.responses ++ [0] }) ∧
    (s.regs.phase = .fault → exec (.setdim sel imm16) s = .next { s with responses := s.responses ++ [0] })

/-- LDCKB writes byte NLD of STORED and counts it; a fifth byte raises SEQUENCE. Formalises R84. -/
def Obligations.LdckbLoadsNextStoredByte : Prop :=
  ∀ (imm8 : Byte) (s : State),
    (encode (.ldckb imm8) = 0x08000000#32 ||| imm8.setWidth 32) ∧
    (s.regs.phase ≠ .fault → s.regs.nld.val < 4 → ∃ (v : Word) (n : Fin 5),
      n.val = s.regs.nld.val + 1 ∧
      (∀ k < 32, v.getLsbD k = if 8 * s.regs.nld.val ≤ k ∧ k < 8 * s.regs.nld.val + 8
        then imm8.getLsbD (k - 8 * s.regs.nld.val) else s.regs.stored.getLsbD k) ∧
      exec (.ldckb imm8) s =
        .next { s with regs := { s.regs with stored := v, nld := n }, responses := s.responses ++ [0] }) ∧
    (s.regs.phase ≠ .fault → s.regs.nld.val = 4 → exec (.ldckb imm8) s =
      .next { s with regs := { s.regs with phase := .fault, errcode := .sequence }, responses := s.responses ++ [0] }) ∧
    (s.regs.phase = .fault → exec (.ldckb imm8) s = .next { s with responses := s.responses ++ [0] })

/-- START absorbs four zero bytes from CRC_INIT, clears COUNT and enters RUN. Formalises R85. -/
def Obligations.StartAbsorbsZeroPrefix : Prop :=
  (encode .start = 0x03000000#32) ∧
  ∀ s : State,
    (s.regs.phase = .idle → exec .start s = .next { s with
      regs := { s.regs with
        crc := absorb Config.params (absorb Config.params (absorb Config.params (absorb Config.params
          Config.params.init 0) 0) 0) 0
        count := 0
        phase := .run }
      responses := s.responses ++ [0] }) ∧
    (s.regs.phase = .run ∨ s.regs.phase = .done → exec .start s =
      .next { s with regs := { s.regs with phase := .fault, errcode := .sequence }, responses := s.responses ++ [0] }) ∧
    (s.regs.phase = .fault → exec .start s = .next { s with responses := s.responses ++ [0] })

/-- DATA absorbs one payload byte and counts it; a surplus byte raises SIZE_MISMATCH. Where COUNT is above the product,
in states no run reaches, the 64-bit sum is the model's choice (log entry 7, DEDUCED). Rests on 42_stream_commands.md
R86, log entry 7. -/
def Obligations.DataAbsorbsOnePayloadByte : Prop :=
  ∀ (imm8 : Byte) (s : State),
    (encode (.data imm8) = 0x04000000#32 ||| imm8.setWidth 32) ∧
    (s.regs.phase = .run →
      s.regs.count.toNat ≠ s.regs.w.toNat * s.regs.h.toNat * s.regs.d.toNat * s.regs.b.toNat →
      exec (.data imm8) s = .next { s with
        regs := { s.regs with crc := absorb Config.params s.regs.crc imm8, count := s.regs.count + 1 }
        responses := s.responses ++ [0] }) ∧
    (s.regs.phase = .run →
      s.regs.count.toNat = s.regs.w.toNat * s.regs.h.toNat * s.regs.d.toNat * s.regs.b.toNat →
      exec (.data imm8) s = .next { s with
        regs := { s.regs with phase := .fault, errcode := .sizeMismatch }
        responses := s.responses ++ [0] }) ∧
    (s.regs.phase = .idle ∨ s.regs.phase = .done → exec (.data imm8) s =
      .next { s with regs := { s.regs with phase := .fault, errcode := .sequence }, responses := s.responses ++ [0] }) ∧
    (s.regs.phase = .fault → exec (.data imm8) s = .next { s with responses := s.responses ++ [0] })

/-- FINISH gives RESULT = CRC xor CRC_XOROUT when the count is complete, else SIZE_MISMATCH. Rests on
42_stream_commands.md R87 (pseudocode and faults; its Result line is stated by FrameProtocolComputesChecksum). -/
def Obligations.FinishProducesChecksumOfCompletePayload : Prop :=
  (encode .finish = 0x05000000#32) ∧
  ∀ s : State,
    (s.regs.phase = .run →
      s.regs.count.toNat = s.regs.w.toNat * s.regs.h.toNat * s.regs.d.toNat * s.regs.b.toNat →
      exec .finish s = .next { s with
        regs := { s.regs with result := s.regs.crc ^^^ Config.params.xorout, phase := .done }
        responses := s.responses ++ [0] }) ∧
    (s.regs.phase = .run →
      s.regs.count.toNat ≠ s.regs.w.toNat * s.regs.h.toNat * s.regs.d.toNat * s.regs.b.toNat →
      exec .finish s = .next { s with
        regs := { s.regs with phase := .fault, errcode := .sizeMismatch }
        responses := s.responses ++ [0] }) ∧
    (s.regs.phase = .idle ∨ s.regs.phase = .done → exec .finish s =
      .next { s with regs := { s.regs with phase := .fault, errcode := .sequence }, responses := s.responses ++ [0] }) ∧
    (s.regs.phase = .fault → exec .finish s = .next { s with responses := s.responses ++ [0] })

/-- RDCK responds RESULT in DONE and changes no register; elsewhere SEQUENCE. Formalises R88. -/
def Obligations.RdckRespondsResultInDone : Prop :=
  (encode .rdck = 0x06000000#32) ∧
  ∀ s : State,
    (s.regs.phase = .done → exec .rdck s = .next { s with responses := s.responses ++ [s.regs.result] }) ∧
    (s.regs.phase = .idle ∨ s.regs.phase = .run → exec .rdck s =
      .next { s with regs := { s.regs with phase := .fault, errcode := .sequence }, responses := s.responses ++ [0] }) ∧
    (s.regs.phase = .fault → exec .rdck s = .next { s with responses := s.responses ++ [0] })

/-- RDCKB responds byte sel of RESULT, zero-extended, in DONE; elsewhere SEQUENCE. Formalises R89. -/
def Obligations.RdckbRespondsResultByteInDone : Prop :=
  ∀ (sel : BitVec 2) (s : State),
    (encode (.rdckb sel) = 0x07000000#32 ||| (sel.setWidth 32 <<< 16)) ∧
    (s.regs.phase = .done → ∃ rsp : Word, rsp.toNat = s.regs.result.toNat / 256 ^ sel.toNat % 256 ∧
      exec (.rdckb sel) s = .next { s with responses := s.responses ++ [rsp] }) ∧
    (s.regs.phase = .idle ∨ s.regs.phase = .run → exec (.rdckb sel) s =
      .next { s with regs := { s.regs with phase := .fault, errcode := .sequence }, responses := s.responses ++ [0] }) ∧
    (s.regs.phase = .fault → exec (.rdckb sel) s = .next { s with responses := s.responses ++ [0] })

/-- CHECK sets MATCH and responds 1 on equality, else raises SEQUENCE or CHECKSUM_MISMATCH. Formalises R90. -/
def Obligations.CheckComparesResultWithStored : Prop :=
  (encode .check = 0x09000000#32) ∧
  ∀ s : State,
    (s.regs.phase = .done → s.regs.nld.val = 4 → s.regs.result = s.regs.stored → exec .check s =
      .next { s with regs := { s.regs with matched := true }, responses := s.responses ++ [1] }) ∧
    (s.regs.phase = .done → s.regs.nld.val = 4 → s.regs.result ≠ s.regs.stored → exec .check s =
      .next { s with regs := { s.regs with phase := .fault, errcode := .checksumMismatch }
                     responses := s.responses ++ [0] }) ∧
    (s.regs.phase = .done → s.regs.nld.val < 4 → exec .check s =
      .next { s with regs := { s.regs with phase := .fault, errcode := .sequence }, responses := s.responses ++ [0] }) ∧
    (s.regs.phase = .idle ∨ s.regs.phase = .run → exec .check s =
      .next { s with regs := { s.regs with phase := .fault, errcode := .sequence }, responses := s.responses ++ [0] }) ∧
    (s.regs.phase = .fault → exec .check s = .next { s with responses := s.responses ++ [0] })

/-- RDST responds STATUS in every phase and changes no register. Formalises R91, R24. -/
def Obligations.RdstRespondsStatusInEveryPhase : Prop :=
  (encode .rdst = 0x0A000000#32) ∧
  (∀ s : State, ∃ st : Word,
    st.toNat = (match s.regs.phase with | .idle => 0 | .run => 1 | .done => 2 | .fault => 3) +
      4 * (if s.regs.matched then 1 else 0) +
      16 * (match s.regs.errcode with
        | .none => 0 | .illegalCmd => 1 | .sequence => 2 | .sizeMismatch => 3 | .checksumMismatch => 4) +
      256 * s.regs.nld.val ∧
    exec .rdst s = .next { s with responses := s.responses ++ [st] }) ∧
  (State.reset.regs.status = 0x00000000#32)

/-- Words written out from the spec's encodings decode to their commands, and illegal ones are rejected. Which of the
two names of Illegal a rejected word gets is the model's choice (log entry 13, DESIGN CHOICE). Rests on 30_encoding.md
R59, R60, 95_test_vectors.md V43 to V51, log entry 13. -/
def Obligations.SpecWordsDecodeToTheirCommands : Prop :=
  (([0x01000000, 0x02000080, 0x02010080, 0x02020001, 0x02030001, 0x0203FFFF, 0x03000000, 0x05000000, 0x06000000,
      0x09000000, 0x0A000000, 0x040000A5, 0x07000000, 0x07010000, 0x07020000, 0x07030000, 0x080000CF] : List Word).map decode =
    [.ok .clr, .ok (.setdim .w 128), .ok (.setdim .h 128), .ok (.setdim .d 1), .ok (.setdim .b 1), .ok (.setdim .b 65535),
      .ok .start, .ok .finish, .ok .rdck, .ok .check, .ok .rdst, .ok (.data 0xA5), .ok (.rdckb 0), .ok (.rdckb 1),
      .ok (.rdckb 2), .ok (.rdckb 3), .ok (.ldckb 0xCF)]) ∧
  (([0x00000000, 0xFFFFFFFF, 0x0B000000, 0x10000000] : List Word).map decode =
    [.error (.undefinedOpcode 0x00), .error (.undefinedOpcode 0xFF), .error (.undefinedOpcode 0x0B),
      .error (.undefinedOpcode 0x10)]) ∧
  (([0x01000001, 0x02040000, 0x03000100, 0x04000100, 0x04010000, 0x05800000, 0x06000001, 0x07000001, 0x07040000,
      0x08000100, 0x09000001, 0x0A000001] : List Word).map decode =
    [.error (.reservedBits 0x01), .error (.reservedBits 0x02), .error (.reservedBits 0x03), .error (.reservedBits 0x04),
      .error (.reservedBits 0x04), .error (.reservedBits 0x05), .error (.reservedBits 0x06), .error (.reservedBits 0x07),
      .error (.reservedBits 0x07), .error (.reservedBits 0x08), .error (.reservedBits 0x09), .error (.reservedBits 0x0A)])

/-- Decoding the word of any command gives the command back. Rests on 30_encoding.md R60. -/
def Obligations.DecodeOfEncodeIsTheCommand : Prop :=
  ∀ i : Instr, decode (encode i) = .ok i

/-- A legal word is the encoding of the command it decodes to. Rests on 30_encoding.md R60. -/
def Obligations.EncodeOfDecodeIsTheWord : Prop :=
  ∀ (cw : Word) (i : Instr), decode cw = .ok i → encode i = cw

/-- A word is legal exactly when it selects one of the ten disjoint rows of the opcode map. Rests on 30_encoding.md R59,
R60. -/
def Obligations.LegalWordsAreTheTenRows : Prop :=
  ∀ cw : Word,
    ((∃ i, decode cw = .ok i) ↔ ∃ row ∈ opcodeMap, cw &&& row.2 = row.1) ∧
    (∀ row ∈ opcodeMap, ∀ row' ∈ opcodeMap, cw &&& row.2 = row.1 → cw &&& row'.2 = row'.1 → row = row') ∧
    (∀ i, decode cw = .ok i → cw &&& (rowOf i).2 = (rowOf i).1)

/-- The illegal words are the undefined opcodes and the nonzero must-be-zero bits. Rests on 30_encoding.md R60, R61. -/
def Obligations.IllegalWordsAreTheOnesNamed : Prop :=
  ∀ cw : Word, (∃ e, decode cw = .error e) ↔
    (match (cw.extractLsb' 24 8).toNat with
      | 0x01 | 0x03 | 0x05 | 0x06 | 0x09 | 0x0A => cw.extractLsb' 0 24 ≠ 0#24
      | 0x02 => cw.extractLsb' 18 6 ≠ 0#6
      | 0x04 | 0x08 => cw.extractLsb' 8 16 ≠ 0#16
      | 0x07 => cw.extractLsb' 18 6 ≠ 0#6 ∨ cw.extractLsb' 0 16 ≠ 0#16
      | _ => True)

/-- There are exactly 262666 legal words. Rests on 30_encoding.md R60. -/
def Obligations.LegalWordsAre262666 : Prop :=
  ∃ words : List Word, words.Nodup ∧ words.length = 262666 ∧ ∀ cw, cw ∈ words ↔ ∃ i, decode cw = .ok i

/-- A step whose next event is a legal command word runs that command. Rests on 30_encoding.md R63. -/
def Obligations.StepRunsTheDecodedCommand : Prop :=
  ∀ (s : State) (cw : Word) (rest : List Event) (i : Instr),
    s.input = .command cw :: rest → decode cw = .ok i → step s = exec i { s with input := rest }

/-- A word placed in front of the model's own stream (log entry 2) is the one the next step takes. Rests on 20_memory.md
R47, INVENTORY.md State: input, log entry 2. -/
def Obligations.PlacedWordIsFetchedNext : Prop :=
  ∀ (s : State) (w : Nat) (i : Instr), w < 2 ^ 32 → decode (BitVec.ofNat 32 w) = .ok i →
    step (s.withFetchWord 32 w) = exec i s

/-- An illegal word raises ILLEGAL_CMD in IDLE, RUN and DONE alike. Formalises R105. -/
def Obligations.IllegalWordRaisesIllegalCmd : Prop :=
  ∀ (s : State) (cw : Word) (rest : List Event), s.input = .command cw :: rest → s.regs.phase ≠ .fault →
    ((∃ e, decode cw = .error e) ↔ step s = .next { s with
      regs := { s.regs with phase := .fault, errcode := .illegalCmd }
      input := rest
      responses := s.responses ++ [0] })

/-- In FAULT every word but CLR and RDST changes nothing and responds 0. Formalises R113. -/
def Obligations.FaultPhasePerformsOnlyClrAndRdst : Prop :=
  ∀ (s : State) (cw : Word) (rest : List Event), s.input = .command cw :: rest → s.regs.phase = .fault →
    (decode cw ≠ .ok .clr → decode cw ≠ .ok .rdst →
      step s = .next { s with input := rest, responses := s.responses ++ [0] }) ∧
    (decode cw = .ok .clr →
      step s = .next { s with regs := Regs.reset, input := rest, responses := s.responses ++ [0] }) ∧
    (decode cw = .ok .rdst →
      step s = .next { s with input := rest, responses := s.responses ++ [s.regs.status] })

/-- Every step answers a next state. Rests on 30_encoding.md R63 (total), 70_reset_and_hazards.md R129. -/
def Obligations.StepIsTotal : Prop :=
  ∀ s : State, ∃ t, step s = .next t

/-- Every command word gets exactly one response, zero unless it is a result. Formalises R64. -/
def Obligations.EveryCommandAnswersOneResponse : Prop :=
  ∀ (s : State) (cw : Word) (rest : List Event), s.input = .command cw :: rest → ∃ t, step s = .next t ∧
    t.input = rest ∧ ∃ rsp, t.responses = s.responses ++ [rsp] ∧
      (decode cw = .ok .rdck → s.regs.phase = .done → rsp = s.regs.result) ∧
      (∀ sel, decode cw = .ok (.rdckb sel) → s.regs.phase = .done →
        rsp.toNat = s.regs.result.toNat / 256 ^ sel.toNat % 256) ∧
      (decode cw = .ok .check → t.regs.phase = .done → rsp = 1) ∧
      (decode cw = .ok .rdst → rsp = s.regs.status) ∧
      (decode cw ≠ .ok .rdst → (s.regs.phase = .fault ∨ t.regs.phase = .fault) → rsp = 0) ∧
      ((decode cw ≠ .ok .rdck ∧ (∀ sel, decode cw ≠ .ok (.rdckb sel)) ∧ decode cw ≠ .ok .check ∧
        decode cw ≠ .ok .rdst) → rsp = 0)

/-- Taking a fault writes PHASE and ERRCODE and nothing else. Formalises R112. -/
def Obligations.FaultEntryWritesOnlyPhaseAndErrcode : Prop :=
  ∀ (s t : State) (cw : Word) (rest : List Event), s.input = .command cw :: rest → s.regs.phase ≠ .fault →
    step s = .next t → t.regs.phase = .fault → ∃ code, code ≠ .none ∧
      t = { s with regs := { s.regs with phase := .fault, errcode := code }, input := rest
                   responses := s.responses ++ [0] }

/-- Of several fault conditions the first in the order illegal, phase, own checks is raised. Formalises R111. -/
def Obligations.FirstFaultInPriorityOrderIsRaised : Prop :=
  ∀ (s : State) (cw : Word) (rest : List Event), s.input = .command cw :: rest → s.regs.phase ≠ .fault →
    match firstFault cw s.regs with
    | some code => step s = .next { s with
        regs := { s.regs with phase := .fault, errcode := code }, input := rest, responses := s.responses ++ [0] }
    | none => ∃ t, step s = .next t ∧ t.regs.phase ≠ .fault

/-- SEQUENCE is raised exactly on the conditions the table gives each command. Formalises R106. -/
def Obligations.SequenceRaisedExactlyAsTabled : Prop :=
  ∀ (i : Instr) (s : State), s.regs.phase ≠ .fault →
    (exec i s =
      .next { s with regs := { s.regs with phase := .fault, errcode := .sequence }, responses := s.responses ++ [0] } ↔
     match i with
      | .clr | .rdst => False
      | .setdim _ _ | .start => s.regs.phase = .run ∨ s.regs.phase = .done
      | .data _ | .finish => s.regs.phase = .idle ∨ s.regs.phase = .done
      | .rdck | .rdckb _ => s.regs.phase = .idle ∨ s.regs.phase = .run
      | .check => s.regs.phase = .idle ∨ s.regs.phase = .run ∨ (s.regs.phase = .done ∧ s.regs.nld.val ≠ 4)
      | .ldckb _ => s.regs.nld.val = 4)

/-- SIZE_MISMATCH is raised exactly by a surplus DATA or a short FINISH. Rests on 60_exceptions.md R107, 20_memory.md
R36. -/
def Obligations.SizeMismatchRaisedExactlyOnWrongCount : Prop :=
  ∀ (i : Instr) (s : State), s.regs.phase ≠ .fault →
    (exec i s = .next { s with
        regs := { s.regs with phase := .fault, errcode := .sizeMismatch }, responses := s.responses ++ [0] } ↔
      s.regs.phase = .run ∧
      (((∃ b, i = .data b) ∧ s.regs.count.toNat = s.regs.w.toNat * s.regs.h.toNat * s.regs.d.toNat * s.regs.b.toNat) ∨
        (i = .finish ∧
          s.regs.count.toNat ≠ s.regs.w.toNat * s.regs.h.toNat * s.regs.d.toNat * s.regs.b.toNat)))

/-- CHECKSUM_MISMATCH is raised exactly by CHECK of a different complete stored checksum. Rests on 60_exceptions.md
R108, 43_result_commands.md R90. -/
def Obligations.ChecksumMismatchRaisedOnlyByCheck : Prop :=
  ∀ (i : Instr) (s : State), s.regs.phase ≠ .fault →
    (exec i s = .next { s with
        regs := { s.regs with phase := .fault, errcode := .checksumMismatch }, responses := s.responses ++ [0] } ↔
      i = .check ∧ s.regs.phase = .done ∧ s.regs.nld.val = 4 ∧ s.regs.result ≠ s.regs.stored)

/-- The phase changes exactly by START, a complete FINISH, a fault, CLR or reset. Formalises R20. -/
def Obligations.PhaseChangesOnlyAsAllowed : Prop :=
  (Phase.idle.code = 0 ∧ Phase.run.code = 1 ∧ Phase.done.code = 2 ∧ Phase.fault.code = 3) ∧
  (∀ (s t : State) (e : Event) (rest : List Event), s.input = e :: rest → step s = .next t →
    t.regs.phase = s.regs.phase ∨
    (s.regs.phase = .idle ∧ t.regs.phase = .run ∧ ∃ cw, e = .command cw ∧ decode cw = .ok .start) ∨
    (s.regs.phase = .run ∧ t.regs.phase = .done ∧ s.regs.count.toNat = s.regs.expect ∧
      ∃ cw, e = .command cw ∧ decode cw = .ok .finish) ∨
    (s.regs.phase ≠ .fault ∧ t.regs.phase = .fault ∧ t.regs.errcode ≠ .none ∧ ∃ cw, e = .command cw) ∨
    (t.regs.phase = .idle ∧ (e = .reset ∨ ∃ cw, e = .command cw ∧ decode cw = .ok .clr))) ∧
  ∀ s : State,
    (s.regs.phase = .idle → ∃ t, exec .start s = .next t ∧ t.regs.phase = .run) ∧
    (s.regs.phase = .run → s.regs.count.toNat = s.regs.expect → ∃ t, exec .finish s = .next t ∧ t.regs.phase = .done) ∧
    (∀ code, code ≠ .none → ∃ t, raiseFault code s = .next t ∧ t.regs.phase = .fault ∧ t.regs.errcode = code) ∧
    (∃ t, exec .clr s = .next t ∧ t.regs.phase = .idle) ∧
    ∃ t, hardwareReset s = .next t ∧ t.regs.phase = .idle

/-- Once in FAULT, any run of words without CLR leaves every register as it is. Formalises R115. -/
def Obligations.FirstFaultStaysUntilClr : Prop :=
  ∀ (ws : List Word) (s : State), s.regs.phase = .fault → (∀ cw ∈ ws, decode cw ≠ .ok .clr) →
    presentAll ws s = .next { s with responses := s.responses ++ ws.map (responseInFault s.regs) }

/-- Hardware reset gives every register its reset value in any state, as CLR does. That it gives no response and leaves
the host's list and the record of responses alone is the model's choice (log entry 4, DESIGN CHOICE and DEDUCED). Rests
on 70_reset_and_hazards.md R123, R124, log entry 4. -/
def Obligations.HardwareResetEqualsClr : Prop :=
  ∀ (s : State) (rest : List Event), s.input = .reset :: rest →
    step s = .next { s with
      regs := { w := 0, h := 0, d := 0, b := 0, count := 0, crc := 0, result := 0, stored := 0, nld := 0, phase := .idle,
                matched := false, errcode := .none }
      input := rest } ∧
    ∃ t u, step s = .next t ∧ exec .clr s = .next u ∧ t.regs = u.regs ∧ t.regs = State.reset.regs

/-- After hardware reset every register holds zero. Formalises R30. -/
def Obligations.ResetHoldsZeroEverywhere : Prop :=
  State.reset.regs = { w := 0, h := 0, d := 0, b := 0, count := 0, crc := 0, result := 0, stored := 0, nld := 0,
                       phase := .idle, matched := false, errcode := .none } ∧
  State.reset.regs.status = 0x00000000#32 ∧
  ∀ s : State, ∃ t, exec .clr s = .next t ∧ t.regs = State.reset.regs

/-- With nothing presented the engine holds its state. Rests on 60_exceptions.md R122, log entry 5. -/
def Obligations.EmptyStreamHoldsState : Prop :=
  ∀ s : State, s.input = [] → step s = .next s

/-- Running the stream step by step is the left fold over its command words. Rests on 20_memory.md R48. -/
def Obligations.StreamIsTheFoldOfItsCommands : Prop :=
  ∀ (ws : List Word) (s : State),
    runSteps ws.length { s with input := ws.map .command } = presentAll ws { s with input := [] }

/-- The reset state satisfies the invariants of R28. Rests on 10_state.md R28. -/
def Obligations.ResetSatisfiesRegisterInvariants : Prop :=
  State.reset.regs.Tracks []

/-- Every step keeps the invariants of R28, with the payload given so far. Rests on 10_state.md R28, 10_state.md R17,
R18, R19, R21. -/
def Obligations.StepKeepsRegisterInvariants : Prop :=
  ∀ (s t : State) (p : List Byte), s.regs.Tracks p → step s = .next t →
    ∃ p', t.regs.Tracks p' ∧
      (∀ (e : Event) (rest : List Event), s.input = e :: rest → p' = payloadAfter e s.regs p) ∧
      (s.input = [] → p' = p)

/-- EXPECT is below 2^64 and a successful DATA adds exactly one to COUNT. Rests on 40_crc_core.md R79, 10_state.md R17. -/
def Obligations.CountNeverWraps : Prop :=
  (∀ r : Regs, r.expect = r.w.toNat * r.h.toNat * r.d.toNat * r.b.toNat ∧ r.expect ≤ 0xFFFC0005FFFC0001) ∧
  ∀ (s : State) (p : List Byte) (b : Byte), s.regs.Tracks p → s.regs.phase = .run →
    s.regs.count.toNat ≠ s.regs.expect → ∃ t, exec (.data b) s = .next t ∧
      t.regs.count.toNat = s.regs.count.toNat + 1 ∧ t.regs.count.toNat ≤ t.regs.expect

/-- Outside RUN no command reads CRC. Rests on 10_state.md R18, R27. -/
def Obligations.CrcIsUnreadOutsideRun : Prop :=
  ∀ (i : Instr) (s : State) (c : Word), s.regs.phase ≠ .run → ∃ (r : Regs) (rsp c' : Word),
    exec i s = .next { s with regs := r, responses := s.responses ++ [rsp] } ∧
    exec i { s with regs := { s.regs with crc := c } } =
      .next { s with regs := { r with crc := c' }, responses := s.responses ++ [rsp] } ∧
    (c' = r.crc ∨ (c' = c ∧ r.crc = s.regs.crc))

/-- MATCH is written only by CHECK and CLR and read only by RDST. Formalises R22. -/
def Obligations.MatchIsReadOnlyByRdst : Prop :=
  (∀ (i : Instr) (s : State) (m : Bool), i ≠ .rdst → ∃ (r : Regs) (rsp : Word) (m' : Bool),
    exec i s = .next { s with regs := r, responses := s.responses ++ [rsp] } ∧
    exec i { s with regs := { s.regs with matched := m } } =
      .next { s with regs := { r with matched := m' }, responses := s.responses ++ [rsp] }) ∧
  (∀ (i : Instr) (s t : State), i ≠ .check → i ≠ .clr → exec i s = .next t → t.regs.matched = s.regs.matched) ∧
  (∀ s t : State, exec .clr s = .next t → t.regs.matched = false) ∧
  (∀ s t : State, exec .check s = .next t →
    t.regs.matched = if s.regs.phase = .done ∧ s.regs.nld.val = 4 ∧ s.regs.result = s.regs.stored then true
      else s.regs.matched) ∧
  (State.reset.regs.matched = false)

/-- After CLR, responses and registers depend only on the commands that follow. Rests on 10_state.md R29,
70_reset_and_hazards.md R128. -/
def Obligations.NothingSurvivesClr : Prop :=
  ∀ (s s' : State) (ws : List Word), ∃ (r : Regs) (rsps : List Word),
    presentAll (encode .clr :: ws) s = .next { s with regs := r, responses := s.responses ++ rsps } ∧
    presentAll (encode .clr :: ws) s' = .next { s' with regs := r, responses := s'.responses ++ rsps } ∧
    rsps.length = ws.length + 1

/-- One table lookup absorbs a byte exactly as eight polynomial steps do. Rests on 40_crc_core.md R72, R73, R74. -/
def Obligations.TableDrivenEqualsBitSerial : Prop :=
  ∀ (p : CrcParams) (c : Word) (b : Byte), absorbTable p c b = absorbSerial p c b

/-- The checksum does not depend on how the block is built. Rests on 00_scope.md R2, 40_crc_core.md R74. -/
def Obligations.ChecksumDoesNotDependOnImpl : Prop :=
  ∀ (p : CrcParams) (impl impl' : Impl) (m : List Byte),
    crc32 { p with impl := impl } m = crc32 { p with impl := impl' } m

/-- Feeding the bits of a byte one at a time, bit 0 first, equals absorbing the byte. Rests on 40_crc_core.md R69. -/
def Obligations.BitByBitFormEqualsAbsorb : Prop :=
  ∀ (p : CrcParams) (c : Word) (b : Byte), absorbBits p c b = absorbSerial p c b

/-- bitstep is linear over xor, and crc32 of an xor of messages is the xor of three crc32s. Rests on 40_crc_core.md R75. -/
def Obligations.CrcIsAffineInTheMessage : Prop :=
  (∀ (p : CrcParams) (a b : Word), bitstep p (a ^^^ b) = bitstep p a ^^^ bitstep p b) ∧
  ∀ (p : CrcParams) (m m' : List Byte), m.length = m'.length →
    crc32 p (List.zipWith (fun x y => x ^^^ y) m m') =
      crc32 p m ^^^ crc32 p m' ^^^ crc32 p (List.replicate m.length 0)

/-- When CRC_POLYR has bit 31 set, bitstep has the inverse the spec gives, and absorb is injective. Rests on
40_crc_core.md R76. -/
def Obligations.BitstepIsABijection : Prop :=
  (Config.params.polyr.getLsbD 31 = true) ∧
  ∀ p : CrcParams, p.polyr.getLsbD 31 = true →
    (∀ c, bitstepInv p (bitstep p c) = c) ∧ (∀ r, bitstep p (bitstepInv p r) = r) ∧
    (∀ (b : Byte) (c c' : Word), absorb p c b = absorb p c' b → c = c')

/-- After the prefix the register is 0xDEBB20E3, and no payload has the same checksum without it. Rests on
40_crc_core.md R77, 20_memory.md R38. -/
def Obligations.ZeroPrefixChangesEveryChecksum : Prop :=
  absorbAll Config.params Config.params.init Config.zeroPrefix = 0xDEBB20E3#32 ∧
  ∀ payload : List Byte, frameChecksum Config.params payload ≠ crc32 Config.params payload

/-- A message followed by its own little-endian checksum has crc32 0x2144DF1C. Rests on 40_crc_core.md R80. -/
def Obligations.MessageWithItsChecksumHasFixedResidue : Prop :=
  ∀ m : List Byte, crc32 Config.params (m ++ leBytes 4 (crc32 Config.params m)) = 0x2144DF1C#32

/-- Absorbing a zero byte leaves only the zero register unchanged. Rests on 40_crc_core.md R80, 90_conflicts.md C11. -/
def Obligations.ZeroByteMovesEveryNonzeroRegister : Prop :=
  ∀ c : Word, absorb Config.params c 0 = c ↔ c = 0

/-- A frame sent by the protocol ends in DONE with the CRC-32 of Z4 and its payload. Rests on 42_stream_commands.md R87
(Result), 70_reset_and_hazards.md R126, 10_state.md R19. -/
def Obligations.FrameProtocolComputesChecksum : Prop :=
  ∀ (s : State) (body : List Instr), s.regs.phase = .idle → (∀ i ∈ body, isFrameBody i = true) →
    (payloadBytes body).length = s.regs.expect → s.regs.nld.val + (storedBytes body).length ≤ 4 →
    ∃ t, issue ([.start] ++ body ++ [.finish]) s = .next t ∧
      t.regs.runEnd = .succeeded ∧
      t.regs.result = crc32 Config.params ([0, 0, 0, 0] ++ payloadBytes body) ∧
      t.regs.w = s.regs.w ∧ t.regs.h = s.regs.h ∧ t.regs.d = s.regs.d ∧ t.regs.b = s.regs.b ∧
      t.regs.matched = s.regs.matched ∧ t.regs.errcode = s.regs.errcode ∧
      t.regs.nld.val = s.regs.nld.val + (storedBytes body).length ∧
      t.input = s.input ∧ t.responses.length = s.responses.length + body.length + 2

/-- SETDIMS in IDLE loads the four dimensions and nothing else. Rests on 44_host_flows.md R92. -/
def Obligations.SetdimsLoadsAllDimensions : Prop :=
  ∀ (w h d b : Half) (s : State), s.regs.phase = .idle →
    issue [.setdim .w w, .setdim .h h, .setdim .d d, .setdim .b b] s = .next { s with
      regs := { s.regs with w := w, h := h, d := d, b := b }
      responses := s.responses ++ [0, 0, 0, 0] } ∧
    setdims w h d b = [.setdim .w w, .setdim .h h, .setdim .d d, .setdim .b b] ∧
    ({ s.regs with w := w, h := h, d := d, b := b } : Regs).expect = w.toNat * h.toNat * d.toNat * b.toNat

/-- PAYLOAD absorbs its bytes in order and counts them. Rests on 44_host_flows.md R93, 42_stream_commands.md R86. -/
def Obligations.PayloadFeedsTheWorkingRegister : Prop :=
  ∀ (bs : List Byte) (s : State), s.regs.phase = .run → s.regs.count.toNat + bs.length ≤ s.regs.expect →
    issue (payloadCommands bs) s = .next { s with
      regs := { s.regs with
        crc := absorbAll Config.params s.regs.crc bs
        count := BitVec.ofNat 64 (s.regs.count.toNat + bs.length) }
      responses := s.responses ++ List.replicate bs.length 0 }

/-- LDCK v with no byte loaded leaves STORED = v and NLD = 4. Rests on 44_host_flows.md R94. -/
def Obligations.LdckLoadsTheWholeChecksum : Prop :=
  ∀ (v : Word) (s : State), s.regs.phase ≠ .fault → s.regs.nld = 0 →
    issue (ldck v) s = .next { s with
      regs := { s.regs with stored := v, nld := 4 }
      responses := s.responses ++ [0, 0, 0, 0] }

/-- Each statement in range assembles to its tabled word, and one out of range to nothing. Rests on 30_encoding.md R65
(its table and its range rule). -/
def Obligations.AssemblerGivesTheTabledWords : Prop :=
  (assemble .clr = some [0x01000000#32] ∧ assemble .start = some [0x03000000#32] ∧ assemble .finish = some [0x05000000#32] ∧
    assemble .rdck = some [0x06000000#32] ∧ assemble .check = some [0x09000000#32] ∧ assemble .rdst = some [0x0A000000#32]) ∧
  ∀ n : Nat,
    (∀ sel : DimReg, assemble (.setdim sel n) = if n ≤ 65535 then
      some [BitVec.ofNat 32 ((match sel with
        | .w => 0x02000000 | .h => 0x02010000 | .d => 0x02020000 | .b => 0x02030000) + n)] else none) ∧
    (assemble (.data n) = if n ≤ 255 then some [BitVec.ofNat 32 (0x04000000 + n)] else none) ∧
    (assemble (.rdckb n) = if n ≤ 3 then some [BitVec.ofNat 32 (0x07000000 + n * 0x10000)] else none) ∧
    (assemble (.ldckb n) = if n ≤ 255 then some [BitVec.ofNat 32 (0x08000000 + n)] else none)

/-- Every header field stands little-endian at its offset, and the header is 32 contiguous bytes. Rests on 20_memory.md
R31, R32. -/
def Obligations.HeaderFieldsStandAtTheirOffsets : Prop :=
  (headerFields.map fun f => (f.offset, f.size)) =
    [(0, 4), (4, 2), (6, 2), (8, 2), (10, 2), (12, 4), (16, 8), (24, 4), (28, 4)] ∧
  ∀ f : FrameHeader, f.toBytes.length = 32 ∧
    (∀ i < 4, f.toBytes[i]? = some (BitVec.ofNat 8 (f.magic.toNat / 256 ^ i))) ∧
    (∀ i < 2, f.toBytes[4 + i]? = some (BitVec.ofNat 8 (f.width.toNat / 256 ^ i))) ∧
    (∀ i < 2, f.toBytes[6 + i]? = some (BitVec.ofNat 8 (f.height.toNat / 256 ^ i))) ∧
    (∀ i < 2, f.toBytes[8 + i]? = some (BitVec.ofNat 8 (f.depth.toNat / 256 ^ i))) ∧
    (∀ i < 2, f.toBytes[10 + i]? = some (BitVec.ofNat 8 (f.bytesPerVoxel.toNat / 256 ^ i))) ∧
    (∀ i < 4, f.toBytes[12 + i]? = some (BitVec.ofNat 8 (f.frameNumber.toNat / 256 ^ i))) ∧
    (∀ i < 8, f.toBytes[16 + i]? = some (BitVec.ofNat 8 (f.timestampMicros.toNat / 256 ^ i))) ∧
    (∀ i < 4, f.toBytes[24 + i]? = some (BitVec.ofNat 8 (f.reserved.toNat / 256 ^ i))) ∧
    (∀ i < 4, f.toBytes[28 + i]? = some (BitVec.ofNat 8 (f.checksum.toNat / 256 ^ i)))

/-- Decoding header bytes and a payload of the declared length gives both back; a wrong length or a short file fails.
Rests on 44_host_flows.md R96, R97. -/
def Obligations.DecodeRecoversHeaderAndPayload : Prop :=
  (∀ (f : FrameHeader) (payload : List Byte),
    payload.length = f.width.toNat * f.height.toNat * f.depth.toNat * f.bytesPerVoxel.toNat →
    decodeFile (f.toBytes ++ payload) = .ok (f, payload)) ∧
  (∀ (f : FrameHeader) (payload : List Byte),
    payload.length ≠ f.width.toNat * f.height.toNat * f.depth.toNat * f.bytesPerVoxel.toNat →
    decodeFile (f.toBytes ++ payload) = .error .sizeMismatch) ∧
  (∀ bytes : List Byte, bytes.length < 32 →
    decodeFile bytes = .error .corruptHeader ∧ verifyRef bytes = .error .corruptHeader)

/-- VERIFY_REF reports the magic flag, the length check and the stored checksum, right or wrong. Rests on
44_host_flows.md R98, 20_memory.md R35. -/
def Obligations.ReferenceVerifyReportsWithoutComparing : Prop :=
  ∀ (f : FrameHeader) (payload : List Byte),
    verifyRef (f.toBytes ++ payload) = .ok {
      magicOk := decide (f.magic = Config.magic)
      sizeOk := decide (payload.length = f.width.toNat * f.height.toNat * f.depth.toNat * f.bytesPerVoxel.toNat)
      declaredChecksum := f.checksum }

/-- The encode flow's commands end in DONE with the checksum exactly when the payload has the declared length. Rests on
44_host_flows.md R95, 70_reset_and_hazards.md R129, 60_exceptions.md R107. -/
def Obligations.EncodeCommandsSucceedExactlyOnMatchingLength : Prop :=
  ∀ (a : EncodeArgs) (s : State), ∃ t, issue (encodeCommands a) s = .next t ∧ t.input = s.input ∧
    (a.payload.length = a.width.toNat * a.height.toNat * a.depth.toNat * a.bytesPerVoxel.toNat →
      t.regs.runEnd = .succeeded ∧ t.regs.result = crc32 Config.params ([0, 0, 0, 0] ++ a.payload)) ∧
    (a.payload.length ≠ a.width.toNat * a.height.toNat * a.depth.toNat * a.bytesPerVoxel.toNat →
      t.regs.runEnd = .failed ∧ t.regs.errcode = .sizeMismatch ∧ t.regs.result = 0)

/-- CKSUM_ENCODE outputs the header with the checksum in place and the payload, or nothing on a wrong length. Rests on
44_host_flows.md R95, 20_memory.md R37, R39. -/
def Obligations.EncodeFlowWritesTheChecksum : Prop :=
  ∀ (a : EncodeArgs) (s : State),
    (a.payload.length = a.width.toNat * a.height.toNat * a.depth.toNat * a.bytesPerVoxel.toNat →
      ∃ t, t.regs = Regs.reset ∧ t.input = s.input ∧ cksumEncode a s = .next (t, .ok
        (FrameHeader.toBytes {
            magic := Config.magic, width := a.width, height := a.height, depth := a.depth
            bytesPerVoxel := a.bytesPerVoxel, frameNumber := a.frameNumber, timestampMicros := a.timestampMicros
            reserved := 0, checksum := crc32 Config.params ([0, 0, 0, 0] ++ a.payload) } ++ a.payload))) ∧
    (a.payload.length ≠ a.width.toNat * a.height.toNat * a.depth.toNat * a.bytesPerVoxel.toNat →
      ∃ t, t.input = s.input ∧ cksumEncode a s = .next (t, .error .sizeMismatch))

/-- VERIFY_STRICT accepts exactly the files whose length and checksum both agree, size errors first, and a short file
before any command. That the engine ends in its reset state after an error verdict too is the model's reading of R99
(log entry 10, DEDUCED), and that an error verdict carries no report is its choice (log entry 10, DESIGN CHOICE). Rests
on 44_host_flows.md R97, R99, 43_result_commands.md R90, log entry 10. -/
def Obligations.StrictVerifyDecidesEveryFile : Prop :=
  (∀ (f : FrameHeader) (payload : List Byte) (s : State), ∃ t, t.regs = Regs.reset ∧ t.input = s.input ∧
    verifyStrict (f.toBytes ++ payload) s = .next (t,
      if payload.length ≠ f.width.toNat * f.height.toNat * f.depth.toNat * f.bytesPerVoxel.toNat then
        .error .sizeMismatch
      else if crc32 Config.params ([0, 0, 0, 0] ++ payload) ≠ f.checksum then .error .checksumMismatch
      else .ok { report := { magicOk := decide (f.magic = Config.magic), sizeOk := true, declaredChecksum := f.checksum }
                 checksumOk := true })) ∧
  ∀ (bytes : List Byte) (s : State), bytes.length < 32 → verifyStrict bytes s = .next (s, .error .corruptHeader)

/-- A file CKSUM_ENCODE made passes VERIFY_STRICT, and an altered payload of other checksum fails it. Rests on
44_host_flows.md R100, 95_test_vectors.md S2. -/
def Obligations.StrictVerifyAcceptsEncodedFiles : Prop :=
  ∀ (a : EncodeArgs) (s t v : State) (file : List Byte),
    a.payload.length = a.width.toNat * a.height.toNat * a.depth.toNat * a.bytesPerVoxel.toNat →
    cksumEncode a s = .next (t, .ok file) →
    (∃ u r, verifyStrict file v = .next (u, .ok r) ∧ r.checksumOk = true ∧ r.report.magicOk = true ∧
      r.report.sizeOk = true) ∧
    (∀ payload : List Byte, payload.length = a.payload.length →
      frameChecksum Config.params payload ≠ frameChecksum Config.params a.payload →
      ∃ u, verifyStrict (file.take 32 ++ payload) v = .next (u, .error .checksumMismatch))

/-- Under any schedule each instance ends as if it had run alone. That a schedule index which names no instance changes
nothing is the model's choice (log entry 12, DEDUCED). Rests on 60_exceptions.md R120, log entry 12. -/
def Obligations.InstancesDoNotInfluenceEachOther : Prop :=
  ∀ (schedule : List Nat) (sys : System), ∃ sys', System.runSchedule schedule sys = .next sys' ∧
    sys'.length = sys.length ∧
    ∀ (k : Nat) (s : State), sys[k]? = some s →
      ∃ t, runSteps (schedule.count k) s = .next t ∧ sys'[k]? = some t
end

