-- ==== Sys2Proof/Laws/Crc.lean ====
section
/-! SUPPORT. Small lemmas of the CRC function, over any parameters. -/

namespace Sys2Proof.Machine

open Sys2Proof

@[simp] theorem bitsteps_zero (p : CrcParams) (c : Word) : bitsteps p 0 c = c := rfl

theorem bitsteps_succ (p : CrcParams) (n : Nat) (c : Word) : bitsteps p (n + 1) c = bitsteps p n (bitstep p c) := rfl

theorem bitsteps_add (p : CrcParams) (m n : Nat) (c : Word) : bitsteps p (m + n) c = bitsteps p n (bitsteps p m c) := by
  induction m generalizing c with
  | zero => simp
  | succ m ih => rw [Nat.succ_add, bitsteps_succ, bitsteps_succ, ih]

/-- One step, when bit 0 is clear. -/
theorem bitstep_of_even {p : CrcParams} {c : Word} (h : c.getLsbD 0 = false) : bitstep p c = c >>> 1 := by
  rw [bitstep, h]; simp

/-- One step, when bit 0 is set. -/
theorem bitstep_of_odd {p : CrcParams} {c : Word} (h : c.getLsbD 0 = true) : bitstep p c = (c >>> 1) ^^^ p.polyr := by
  rw [bitstep, h]; simp

@[simp] theorem bitstep_zero (p : CrcParams) : bitstep p 0 = 0 := by simp [bitstep]

theorem absorb_bitSerial {p : CrcParams} (h : p.impl = .bitSerial) (c : Word) (b : Byte) :
    absorb p c b = absorbSerial p c b := by
  simp [absorb, h]

theorem absorb_tableDriven {p : CrcParams} (h : p.impl = .tableDriven) (c : Word) (b : Byte) :
    absorb p c b = absorbTable p c b := by
  simp [absorb, h]

/-- A look-up in the table gives its entry. -/
theorem table_get (p : CrcParams) (i : Byte) : (table p).get i.toFin = tableEntry p i := by
  rw [table, Vector.get_ofFn]

theorem absorbTable_eq (p : CrcParams) (c : Word) (b : Byte) :
    absorbTable p c b = tableEntry p ((c ^^^ b.setWidth 32).setWidth 8) ^^^ (c >>> 8) := by
  rw [absorbTable, table_get]

@[simp] theorem absorbAll_nil (p : CrcParams) (c : Word) : absorbAll p c [] = c := rfl

theorem absorbAll_cons (p : CrcParams) (c : Word) (b : Byte) (m : List Byte) :
    absorbAll p c (b :: m) = absorbAll p (absorb p c b) m := rfl

/-- What lets the engine take a frame one byte at a time (40_crc_core.md R70). -/
theorem absorbAll_append (p : CrcParams) (c : Word) (m m' : List Byte) :
    absorbAll p c (m ++ m') = absorbAll p (absorbAll p c m) m' := by
  simp [absorbAll]

theorem absorbAll_snoc (p : CrcParams) (c : Word) (m : List Byte) (b : Byte) :
    absorbAll p c (m ++ [b]) = absorb p (absorbAll p c m) b := by
  rw [absorbAll_append]; rfl

theorem zeroPrefix_eq : Config.zeroPrefix = [0, 0, 0, 0] := rfl

end Sys2Proof.Machine
end

