-- ==== Sys2Proof/Laws/Decode.lean ====
section
/-! SUPPORT. The fields of the words the encoder makes. -/

namespace Sys2Proof

@[simp] theorem dimOfSel_selOfDim (sel : DimReg) : dimOfSel (selOfDim sel) = sel := by cases sel <;> rfl

@[simp] theorem selOfDim_dimOfSel (sel : BitVec 2) : selOfDim (dimOfSel sel) = sel := by
  revert sel; decide

/-- A bit of a placed field. -/
theorem place_getLsbD {k : Nat} (x : BitVec k) (lo : Nat) {j : Nat} (hj : j < 32) :
    (place x lo).getLsbD j = (decide (lo ≤ j) && x.getLsbD (j - lo)) := by
  by_cases h : lo ≤ j
  · simp [place, hj, h, Nat.not_lt.mpr h]
  · simp [place, h, show j < lo by omega]

/-- The bits of a placed field read back at their place. -/
theorem extract_place_same {k : Nat} (x : BitVec k) (lo : Nat) (h : lo + k ≤ 32) : (place x lo).extractLsb' lo k = x := by
  ext j hj
  have := place_getLsbD x lo (j := lo + j) (by omega)
  simpa [hj] using this

/-- The bits below a placed field are zero. -/
theorem extract_place_below {k : Nat} (x : BitVec k) (lo a n : Nat) (h : a + n ≤ lo) (h' : lo ≤ 32) :
    (place x lo).extractLsb' a n = 0#n := by
  ext j hj
  have := place_getLsbD x lo (j := a + j) (by omega)
  simpa [show ¬lo ≤ a + j by omega] using this

/-- The bits above a placed field are zero. -/
theorem extract_place_above {k : Nat} (x : BitVec k) (lo a n : Nat) (h : lo + k ≤ a) (h' : a + n ≤ 32) :
    (place x lo).extractLsb' a n = 0#n := by
  ext j hj
  have := place_getLsbD x lo (j := a + j) (by omega)
  simpa [show k ≤ a + j - lo by omega, BitVec.getLsbD_of_ge] using this

/-- Extracting commutes with or. -/
theorem extract_or (v v' : Word) (a n : Nat) :
    (v ||| v').extractLsb' a n = v.extractLsb' a n ||| v'.extractLsb' a n := by
  ext j hj
  simp

@[simp] theorem fieldOpcode_formatN (op : Byte) : fieldOpcode (formatN op) = op := by
  simp [fieldOpcode, formatN, extract_place_same op 24 (by decide)]

@[simp] theorem fieldOpcode_formatS (op : Byte) (sel : BitVec 2) : fieldOpcode (formatS op sel) = op := by
  simp [fieldOpcode, formatS, extract_or, extract_place_same op 24 (by decide),
    extract_place_above sel 16 24 8 (by decide) (by decide)]

@[simp] theorem fieldOpcode_formatB (op x : Byte) : fieldOpcode (formatB op x) = op := by
  simp [fieldOpcode, formatB, extract_or, extract_place_same op 24 (by decide),
    extract_place_above x 0 24 8 (by decide) (by decide)]

@[simp] theorem fieldOpcode_formatH (op : Byte) (sel : BitVec 2) (v : Half) : fieldOpcode (formatH op sel v) = op := by
  simp [fieldOpcode, formatH, extract_or, extract_place_same op 24 (by decide),
    extract_place_above sel 16 24 8 (by decide) (by decide), extract_place_above v 0 24 8 (by decide) (by decide)]

@[simp] theorem fieldSel_formatS (op : Byte) (sel : BitVec 2) : fieldSel (formatS op sel) = sel := by
  simp [fieldSel, formatS, extract_or, extract_place_below op 24 16 2 (by decide) (by decide),
    extract_place_same sel 16 (by decide)]

@[simp] theorem fieldSel_formatH (op : Byte) (sel : BitVec 2) (v : Half) : fieldSel (formatH op sel v) = sel := by
  simp [fieldSel, formatH, extract_or, extract_place_below op 24 16 2 (by decide) (by decide),
    extract_place_same sel 16 (by decide), extract_place_above v 0 16 2 (by decide) (by decide)]

@[simp] theorem fieldImm16_formatH (op : Byte) (sel : BitVec 2) (v : Half) : fieldImm16 (formatH op sel v) = v := by
  simp [fieldImm16, formatH, extract_or, extract_place_below op 24 0 16 (by decide) (by decide),
    extract_place_below sel 16 0 16 (by decide) (by decide), extract_place_same v 0 (by decide)]

@[simp] theorem fieldImm8_formatB (op x : Byte) : fieldImm8 (formatB op x) = x := by
  simp [fieldImm8, formatB, extract_or, extract_place_below op 24 0 8 (by decide) (by decide),
    extract_place_same x 0 (by decide)]

@[simp] theorem reservedZeroN_formatN (op : Byte) : reservedZeroN (formatN op) = true := by
  simp [reservedZeroN, formatN, extract_place_below op 24 0 24 (by decide) (by decide)]

@[simp] theorem reservedZeroS_formatS (op : Byte) (sel : BitVec 2) : reservedZeroS (formatS op sel) = true := by
  simp [reservedZeroS, formatS, extract_or, extract_place_below op 24 18 6 (by decide) (by decide),
    extract_place_above sel 16 18 6 (by decide) (by decide), extract_place_below op 24 0 16 (by decide) (by decide),
    extract_place_below sel 16 0 16 (by decide) (by decide)]

@[simp] theorem reservedZeroB_formatB (op x : Byte) : reservedZeroB (formatB op x) = true := by
  simp [reservedZeroB, formatB, extract_or, extract_place_below op 24 8 16 (by decide) (by decide),
    extract_place_above x 0 8 16 (by decide) (by decide)]

@[simp] theorem reservedZeroH_formatH (op : Byte) (sel : BitVec 2) (v : Half) : reservedZeroH (formatH op sel v) = true := by
  simp [reservedZeroH, formatH, extract_or, extract_place_below op 24 18 6 (by decide) (by decide),
    extract_place_above sel 16 18 6 (by decide) (by decide), extract_place_above v 0 18 6 (by decide) (by decide)]

/-! ### A word is its fields, each at its place -/

/-- A field of a field. -/
theorem extract_extract {k : Nat} (x : BitVec k) {a n b m : Nat} (h : b + m ≤ n) :
    (x.extractLsb' a n).extractLsb' b m = x.extractLsb' (a + b) m := by
  ext j hj
  simp [show b + j < n by omega, Nat.add_assoc]

@[simp] theorem place_zero (k lo : Nat) : place (0#k) lo = 0 := by simp [place]

/-- A word is its part from bit `n` up and its part below. -/
theorem word_eq_high_or_low (cw : Word) (n : Nat) (hn : n ≤ 32) :
    cw = place (cw.extractLsb' n (32 - n)) n ||| place (cw.extractLsb' 0 n) 0 := by
  ext j hj
  have h1 := place_getLsbD (cw.extractLsb' n (32 - n)) n hj
  have h2 := place_getLsbD (cw.extractLsb' 0 n) 0 hj
  by_cases h : n ≤ j
  · simp_all [show j - n < 32 - n by omega, show n + (j - n) = j by omega]
  · simp_all [show j < n by omega]

/-- A placed field is its part from bit `m` up and its part below. -/
theorem place_eq_high_or_low {m n : Nat} (x : BitVec (m + n)) (lo : Nat) :
    place x lo = place (x.extractLsb' m n) (lo + m) ||| place (x.extractLsb' 0 m) lo := by
  ext j hj
  have h0 := place_getLsbD x lo hj
  have h1 := place_getLsbD (x.extractLsb' m n) (lo + m) hj
  have h2 := place_getLsbD (x.extractLsb' 0 m) lo hj
  by_cases ha : lo ≤ j
  · by_cases hb : lo + m ≤ j
    · have hx : m + (j - (lo + m)) = j - lo := by omega
      by_cases hc : j - lo < m + n
      · simp_all [show j - (lo + m) < n by omega]
      · simp_all [show ¬j - (lo + m) < n by omega, BitVec.getLsbD_of_ge x (j - lo) (by omega)]
    · simp_all [show j - lo < m by omega]
  · simp_all [show ¬lo + m ≤ j by omega]

/-- The fields of formats S and H (R55, R57). -/
theorem word_eq_selector_fields (cw : Word) :
    cw = place (fieldOpcode cw) 24 ||| place (cw.extractLsb' 18 6) 18 ||| place (fieldSel cw) 16 |||
      place (fieldImm16 cw) 0 := by
  have h1 := place_eq_high_or_low (m := 2) (n := 14) (cw.extractLsb' 16 16) 16
  have h2 := place_eq_high_or_low (m := 6) (n := 8) (cw.extractLsb' 18 14) 18
  rw [extract_extract cw (by decide), extract_extract cw (by decide)] at h1 h2
  conv_lhs => rw [word_eq_high_or_low cw 16 (by decide), show 32 - 16 = 16 from rfl, h1, h2]
  rfl

/-- The fields of format B (R56). -/
theorem word_eq_byte_fields (cw : Word) :
    cw = place (fieldOpcode cw) 24 ||| place (cw.extractLsb' 8 16) 8 ||| place (fieldImm8 cw) 0 := by
  have h1 := place_eq_high_or_low (m := 16) (n := 8) (cw.extractLsb' 8 24) 8
  rw [extract_extract cw (by decide), extract_extract cw (by decide)] at h1
  conv_lhs => rw [word_eq_high_or_low cw 8 (by decide), show 32 - 8 = 24 from rfl, h1]
  rfl

/-- The fields of format N (R54). -/
theorem word_eq_opcode_field (cw : Word) : cw = place (fieldOpcode cw) 24 ||| place (cw.extractLsb' 0 24) 0 :=
  word_eq_high_or_low cw 24 (by decide)

/-- The decoder's accepting. -/
theorem acceptIf_ok {reservedZero : Bool} {cw : Word} {i j : Instr} (h : acceptIf reservedZero cw i = .ok j) :
    reservedZero = true ∧ i = j := by
  unfold acceptIf at h
  split at h <;> simp_all

end Sys2Proof
end

