-- ==== Sys2Proof/Laws/State.lean ====
section
/-! SUPPORT. One lemma per field per update of the state and of the registers, so that no later proof unfolds a record update. -/

namespace Sys2Proof.Machine

open Sys2Proof


@[simp] theorem State.answer_regs (s : State) (r : Regs) (rsp : Word) : (s.answer r rsp).regs = r := rfl
@[simp] theorem State.answer_input (s : State) (r : Regs) (rsp : Word) : (s.answer r rsp).input = s.input := rfl
@[simp] theorem State.answer_responses (s : State) (r : Regs) (rsp : Word) : (s.answer r rsp).responses = s.responses ++ [rsp] := rfl

@[simp] theorem State.withInput_regs (s : State) (rest : List Event) : (s.withInput rest).regs = s.regs := rfl
@[simp] theorem State.withInput_input (s : State) (rest : List Event) : (s.withInput rest).input = rest := rfl
@[simp] theorem State.withInput_responses (s : State) (rest : List Event) : (s.withInput rest).responses = s.responses := rfl

@[simp] theorem State.presenting_regs (s : State) (cw : Word) : (s.presenting cw).regs = s.regs := rfl
@[simp] theorem State.presenting_input (s : State) (cw : Word) : (s.presenting cw).input = .command cw :: s.input := rfl
@[simp] theorem State.presenting_responses (s : State) (cw : Word) : (s.presenting cw).responses = s.responses := rfl

@[simp] theorem Regs.faulted_w (r : Regs) (code : ErrCode) : (r.faulted code).w = r.w := rfl
@[simp] theorem Regs.faulted_h (r : Regs) (code : ErrCode) : (r.faulted code).h = r.h := rfl
@[simp] theorem Regs.faulted_d (r : Regs) (code : ErrCode) : (r.faulted code).d = r.d := rfl
@[simp] theorem Regs.faulted_b (r : Regs) (code : ErrCode) : (r.faulted code).b = r.b := rfl
@[simp] theorem Regs.faulted_count (r : Regs) (code : ErrCode) : (r.faulted code).count = r.count := rfl
@[simp] theorem Regs.faulted_crc (r : Regs) (code : ErrCode) : (r.faulted code).crc = r.crc := rfl
@[simp] theorem Regs.faulted_result (r : Regs) (code : ErrCode) : (r.faulted code).result = r.result := rfl
@[simp] theorem Regs.faulted_stored (r : Regs) (code : ErrCode) : (r.faulted code).stored = r.stored := rfl
@[simp] theorem Regs.faulted_nld (r : Regs) (code : ErrCode) : (r.faulted code).nld = r.nld := rfl
@[simp] theorem Regs.faulted_phase (r : Regs) (code : ErrCode) : (r.faulted code).phase = .fault := rfl
@[simp] theorem Regs.faulted_matched (r : Regs) (code : ErrCode) : (r.faulted code).matched = r.matched := rfl
@[simp] theorem Regs.faulted_errcode (r : Regs) (code : ErrCode) : (r.faulted code).errcode = code := rfl
@[simp] theorem Regs.faulted_expect (r : Regs) (code : ErrCode) : (r.faulted code).expect = r.expect := rfl

@[simp] theorem Regs.loadByte_w (r : Regs) (x : Byte) : (r.loadByte x).w = r.w := rfl
@[simp] theorem Regs.loadByte_h (r : Regs) (x : Byte) : (r.loadByte x).h = r.h := rfl
@[simp] theorem Regs.loadByte_d (r : Regs) (x : Byte) : (r.loadByte x).d = r.d := rfl
@[simp] theorem Regs.loadByte_b (r : Regs) (x : Byte) : (r.loadByte x).b = r.b := rfl
@[simp] theorem Regs.loadByte_count (r : Regs) (x : Byte) : (r.loadByte x).count = r.count := rfl
@[simp] theorem Regs.loadByte_crc (r : Regs) (x : Byte) : (r.loadByte x).crc = r.crc := rfl
@[simp] theorem Regs.loadByte_result (r : Regs) (x : Byte) : (r.loadByte x).result = r.result := rfl
@[simp] theorem Regs.loadByte_stored (r : Regs) (x : Byte) : (r.loadByte x).stored = setByte r.stored r.nld.val x := rfl
@[simp] theorem Regs.loadByte_nld (r : Regs) (x : Byte) : (r.loadByte x).nld = r.nld + 1 := rfl
@[simp] theorem Regs.loadByte_phase (r : Regs) (x : Byte) : (r.loadByte x).phase = r.phase := rfl
@[simp] theorem Regs.loadByte_matched (r : Regs) (x : Byte) : (r.loadByte x).matched = r.matched := rfl
@[simp] theorem Regs.loadByte_errcode (r : Regs) (x : Byte) : (r.loadByte x).errcode = r.errcode := rfl
@[simp] theorem Regs.loadByte_expect (r : Regs) (x : Byte) : (r.loadByte x).expect = r.expect := rfl

@[simp] theorem Regs.started_w (r : Regs) : (r.started).w = r.w := rfl
@[simp] theorem Regs.started_h (r : Regs) : (r.started).h = r.h := rfl
@[simp] theorem Regs.started_d (r : Regs) : (r.started).d = r.d := rfl
@[simp] theorem Regs.started_b (r : Regs) : (r.started).b = r.b := rfl
@[simp] theorem Regs.started_count (r : Regs) : (r.started).count = 0 := rfl
@[simp] theorem Regs.started_crc (r : Regs) : (r.started).crc = absorbAll Config.params Config.params.init Config.zeroPrefix := rfl
@[simp] theorem Regs.started_result (r : Regs) : (r.started).result = r.result := rfl
@[simp] theorem Regs.started_stored (r : Regs) : (r.started).stored = r.stored := rfl
@[simp] theorem Regs.started_nld (r : Regs) : (r.started).nld = r.nld := rfl
@[simp] theorem Regs.started_phase (r : Regs) : (r.started).phase = .run := rfl
@[simp] theorem Regs.started_matched (r : Regs) : (r.started).matched = r.matched := rfl
@[simp] theorem Regs.started_errcode (r : Regs) : (r.started).errcode = r.errcode := rfl
@[simp] theorem Regs.started_expect (r : Regs) : (r.started).expect = r.expect := rfl

@[simp] theorem Regs.absorbed_w (r : Regs) (x : Byte) : (r.absorbed x).w = r.w := rfl
@[simp] theorem Regs.absorbed_h (r : Regs) (x : Byte) : (r.absorbed x).h = r.h := rfl
@[simp] theorem Regs.absorbed_d (r : Regs) (x : Byte) : (r.absorbed x).d = r.d := rfl
@[simp] theorem Regs.absorbed_b (r : Regs) (x : Byte) : (r.absorbed x).b = r.b := rfl
@[simp] theorem Regs.absorbed_count (r : Regs) (x : Byte) : (r.absorbed x).count = r.count + 1 := rfl
@[simp] theorem Regs.absorbed_crc (r : Regs) (x : Byte) : (r.absorbed x).crc = absorb Config.params r.crc x := rfl
@[simp] theorem Regs.absorbed_result (r : Regs) (x : Byte) : (r.absorbed x).result = r.result := rfl
@[simp] theorem Regs.absorbed_stored (r : Regs) (x : Byte) : (r.absorbed x).stored = r.stored := rfl
@[simp] theorem Regs.absorbed_nld (r : Regs) (x : Byte) : (r.absorbed x).nld = r.nld := rfl
@[simp] theorem Regs.absorbed_phase (r : Regs) (x : Byte) : (r.absorbed x).phase = r.phase := rfl
@[simp] theorem Regs.absorbed_matched (r : Regs) (x : Byte) : (r.absorbed x).matched = r.matched := rfl
@[simp] theorem Regs.absorbed_errcode (r : Regs) (x : Byte) : (r.absorbed x).errcode = r.errcode := rfl
@[simp] theorem Regs.absorbed_expect (r : Regs) (x : Byte) : (r.absorbed x).expect = r.expect := rfl

@[simp] theorem Regs.finished_w (r : Regs) : (r.finished).w = r.w := rfl
@[simp] theorem Regs.finished_h (r : Regs) : (r.finished).h = r.h := rfl
@[simp] theorem Regs.finished_d (r : Regs) : (r.finished).d = r.d := rfl
@[simp] theorem Regs.finished_b (r : Regs) : (r.finished).b = r.b := rfl
@[simp] theorem Regs.finished_count (r : Regs) : (r.finished).count = r.count := rfl
@[simp] theorem Regs.finished_crc (r : Regs) : (r.finished).crc = r.crc := rfl
@[simp] theorem Regs.finished_result (r : Regs) : (r.finished).result = r.crc ^^^ Config.params.xorout := rfl
@[simp] theorem Regs.finished_stored (r : Regs) : (r.finished).stored = r.stored := rfl
@[simp] theorem Regs.finished_nld (r : Regs) : (r.finished).nld = r.nld := rfl
@[simp] theorem Regs.finished_phase (r : Regs) : (r.finished).phase = .done := rfl
@[simp] theorem Regs.finished_matched (r : Regs) : (r.finished).matched = r.matched := rfl
@[simp] theorem Regs.finished_errcode (r : Regs) : (r.finished).errcode = r.errcode := rfl
@[simp] theorem Regs.finished_expect (r : Regs) : (r.finished).expect = r.expect := rfl

@[simp] theorem Regs.confirmed_w (r : Regs) : (r.confirmed).w = r.w := rfl
@[simp] theorem Regs.confirmed_h (r : Regs) : (r.confirmed).h = r.h := rfl
@[simp] theorem Regs.confirmed_d (r : Regs) : (r.confirmed).d = r.d := rfl
@[simp] theorem Regs.confirmed_b (r : Regs) : (r.confirmed).b = r.b := rfl
@[simp] theorem Regs.confirmed_count (r : Regs) : (r.confirmed).count = r.count := rfl
@[simp] theorem Regs.confirmed_crc (r : Regs) : (r.confirmed).crc = r.crc := rfl
@[simp] theorem Regs.confirmed_result (r : Regs) : (r.confirmed).result = r.result := rfl
@[simp] theorem Regs.confirmed_stored (r : Regs) : (r.confirmed).stored = r.stored := rfl
@[simp] theorem Regs.confirmed_nld (r : Regs) : (r.confirmed).nld = r.nld := rfl
@[simp] theorem Regs.confirmed_phase (r : Regs) : (r.confirmed).phase = r.phase := rfl
@[simp] theorem Regs.confirmed_matched (r : Regs) : (r.confirmed).matched = true := rfl
@[simp] theorem Regs.confirmed_errcode (r : Regs) : (r.confirmed).errcode = r.errcode := rfl
@[simp] theorem Regs.confirmed_expect (r : Regs) : (r.confirmed).expect = r.expect := rfl

@[simp] theorem Regs.withDim_w (r : Regs) (sel : DimReg) (v : Half) : (r.withDim sel v).w = if sel = .w then v else r.w := by
  cases sel <;> rfl
@[simp] theorem Regs.withDim_h (r : Regs) (sel : DimReg) (v : Half) : (r.withDim sel v).h = if sel = .h then v else r.h := by
  cases sel <;> rfl
@[simp] theorem Regs.withDim_d (r : Regs) (sel : DimReg) (v : Half) : (r.withDim sel v).d = if sel = .d then v else r.d := by
  cases sel <;> rfl
@[simp] theorem Regs.withDim_b (r : Regs) (sel : DimReg) (v : Half) : (r.withDim sel v).b = if sel = .b then v else r.b := by
  cases sel <;> rfl
@[simp] theorem Regs.withDim_count (r : Regs) (sel : DimReg) (v : Half) : (r.withDim sel v).count = r.count := by
  cases sel <;> rfl
@[simp] theorem Regs.withDim_crc (r : Regs) (sel : DimReg) (v : Half) : (r.withDim sel v).crc = r.crc := by
  cases sel <;> rfl
@[simp] theorem Regs.withDim_result (r : Regs) (sel : DimReg) (v : Half) : (r.withDim sel v).result = r.result := by
  cases sel <;> rfl
@[simp] theorem Regs.withDim_stored (r : Regs) (sel : DimReg) (v : Half) : (r.withDim sel v).stored = r.stored := by
  cases sel <;> rfl
@[simp] theorem Regs.withDim_nld (r : Regs) (sel : DimReg) (v : Half) : (r.withDim sel v).nld = r.nld := by
  cases sel <;> rfl
@[simp] theorem Regs.withDim_phase (r : Regs) (sel : DimReg) (v : Half) : (r.withDim sel v).phase = r.phase := by
  cases sel <;> rfl
@[simp] theorem Regs.withDim_matched (r : Regs) (sel : DimReg) (v : Half) : (r.withDim sel v).matched = r.matched := by
  cases sel <;> rfl
@[simp] theorem Regs.withDim_errcode (r : Regs) (sel : DimReg) (v : Half) : (r.withDim sel v).errcode = r.errcode := by
  cases sel <;> rfl

/-- Reading a dimension after writing one: the value written, and the others as before. -/
theorem Regs.dim_withDim (r : Regs) (sel sel' : DimReg) (v : Half) :
    (r.withDim sel v).dim sel' = if sel' = sel then v else r.dim sel' := by
  cases sel <;> cases sel' <;> rfl

@[simp] theorem Regs.reset_status : Regs.reset.status = 0 := by decide

@[simp] theorem Regs.complete_iff (r : Regs) : r.complete = true ↔ r.count.toNat = r.expect := by
  simp [Regs.complete]

@[simp] theorem Regs.not_complete_iff (r : Regs) : r.complete = false ↔ r.count.toNat ≠ r.expect := by
  simp [Regs.complete]

end Sys2Proof.Machine
end

