-- ==== Sys2Proof/Laws/Operands.lean ====
section
/-! SUPPORT. Read after write for the bytes of a 32-bit register. -/

namespace Sys2Proof.Machine

open Sys2Proof

/-- A bit of a word with one byte replaced. -/
theorem setByte_getLsbD (v : Word) (i : Nat) (x : Byte) {k : Nat} (hk : k < 32) :
    (setByte v i x).getLsbD k = if 8 * i ≤ k ∧ k < 8 * i + 8 then x.getLsbD (k - 8 * i) else v.getLsbD k := by
  have h255 : ∀ m : Nat, (0xFF#32).getLsbD m = decide (m < 8) := by
    intro m
    by_cases hm : m < 32
    · interval_cases m <;> rfl
    · rw [BitVec.getLsbD_of_ge _ _ (by omega)]
      simp; omega
  by_cases h1 : 8 * i ≤ k
  · by_cases h2 : k < 8 * i + 8
    · have : k - 8 * i < 8 := by omega
      simp [setByte, hk, h255, h1, h2, this, show k - 8 * i < 32 by omega, Nat.not_lt.mpr h1,
        -BitVec.getLsbD_eq_getElem]
    · have : ¬ k - 8 * i < 8 := by omega
      simp [setByte, hk, h255, h1, h2, this, Nat.not_lt.mpr h1, BitVec.getLsbD_of_ge x (k - 8 * i) (by omega),
        -BitVec.getLsbD_eq_getElem]
  · have : k < 8 * i := by omega
    simp [setByte, hk, h1, this, -BitVec.getLsbD_eq_getElem]

/-- Reading the byte written. -/
theorem byteOf_setByte_same (v : Word) {i : Nat} (x : Byte) (hi : i < 4) : byteOf (setByte v i x) i = x := by
  ext k hk
  have h := setByte_getLsbD v i x (k := 8 * i + k) (by omega)
  simpa [byteOf, hk, BitVec.getLsbD_eq_getElem] using h

/-- The other bytes are unchanged. -/
theorem byteOf_setByte_other (v : Word) {i j : Nat} (x : Byte) (hj : j < 4) (h : j ≠ i) :
    byteOf (setByte v i x) j = byteOf v j := by
  ext k hk
  have := setByte_getLsbD v i x (k := 8 * j + k) (by omega)
  rw [if_neg (by omega)] at this
  simpa [byteOf, hk] using this

end Sys2Proof.Machine
end

