-- ==== Sys2Proof/Laws/Ops.lean ====
section
/-! SUPPORT. What each shared operation can do, said once, and what a command can do to the registers: every proof about `exec` or
`step` starts here. -/

namespace Sys2Proof.Machine

open Sys2Proof

@[simp] theorem andThen_next {α β : Type} (a : α) (f : α → Host.Outcome β Fault Refusal) :
    andThen (.next a) f = f a := rfl

theorem andThen_assoc {α β γ : Type} (o : Host.Outcome α Fault Refusal) (f : α → Host.Outcome β Fault Refusal)
    (g : β → Host.Outcome γ Fault Refusal) : andThen (andThen o f) g = andThen o fun a => andThen (f a) g := by
  cases o <;> rfl

@[simp] theorem respond_eq (r : Regs) (rsp : Word) (s : State) : respond r rsp s = .next (s.answer r rsp) := rfl

@[simp] theorem raiseFault_eq (code : ErrCode) (s : State) :
    raiseFault code s = .next (s.answer (s.regs.faulted code) 0) := rfl

@[simp] theorem ignore_eq (s : State) : ignore s = .next (s.answer s.regs 0) := rfl

@[simp] theorem clear_eq (s : State) : clear s = .next (s.answer Regs.reset 0) := rfl

theorem guarded_in_fault {legal : List Phase} {perform : Host.Outcome State Fault Refusal} {s : State}
    (h : s.regs.phase = .fault) : guarded legal perform s = .next (s.answer s.regs 0) := by
  simp [guarded, h]

theorem guarded_legal {legal : List Phase} {perform : Host.Outcome State Fault Refusal} {s : State}
    (h : s.regs.phase ≠ .fault) (hl : s.regs.phase ∈ legal) : guarded legal perform s = perform := by
  simp [guarded, h, hl]

theorem guarded_misplaced {legal : List Phase} {perform : Host.Outcome State Fault Refusal} {s : State}
    (h : s.regs.phase ≠ .fault) (hl : s.regs.phase ∉ legal) :
    guarded legal perform s = .next (s.answer (s.regs.faulted .sequence) 0) := by
  simp [guarded, h, hl]

/-- Everything the phase guard can do. -/
theorem guarded_cases (legal : List Phase) (perform : Host.Outcome State Fault Refusal) (s : State) :
    (s.regs.phase = .fault ∧ guarded legal perform s = .next (s.answer s.regs 0)) ∨
    (s.regs.phase ≠ .fault ∧ s.regs.phase ∈ legal ∧ guarded legal perform s = perform) ∨
    (s.regs.phase ≠ .fault ∧ s.regs.phase ∉ legal ∧
      guarded legal perform s = .next (s.answer (s.regs.faulted .sequence) 0)) := by
  by_cases h : s.regs.phase = .fault
  · exact .inl ⟨h, guarded_in_fault h⟩
  · by_cases hl : s.regs.phase ∈ legal
    · exact .inr (.inl ⟨h, hl, guarded_legal h hl⟩)
    · exact .inr (.inr ⟨h, hl, guarded_misplaced h hl⟩)

/-- When a legal word raises SEQUENCE outside FAULT (60_exceptions.md R106). -/
def Misplaced (i : Instr) (r : Regs) : Prop :=
  match i with
  | .clr => False
  | .setdim _ _ => r.phase ≠ .idle
  | .start => r.phase ≠ .idle
  | .data _ => r.phase ≠ .run
  | .finish => r.phase ≠ .run
  | .rdck => r.phase ≠ .done
  | .rdckb _ => r.phase ≠ .done
  | .ldckb _ => r.nld = 4
  | .check => r.phase ≠ .done ∨ r.nld ≠ 4
  | .rdst => False

/-- What a command can do: the registers and the response it answers with. -/
inductive CommandEffect (i : Instr) (r : Regs) : Regs → Word → Prop where
  | cleared (hi : i = .clr) : CommandEffect i r Regs.reset 0
  | ignored (hp : r.phase = .fault) (hc : i ≠ .clr) (hr : i ≠ .rdst) : CommandEffect i r r 0
  | misplaced (hp : r.phase ≠ .fault) (hm : Misplaced i r) : CommandEffect i r (r.faulted .sequence) 0
  | loadedDim (sel : DimReg) (v : Half) (hi : i = .setdim sel v) (hp : r.phase = .idle) :
      CommandEffect i r (r.withDim sel v) 0
  | loadedByte (x : Byte) (hi : i = .ldckb x) (hp : r.phase ≠ .fault) (hn : r.nld ≠ 4) :
      CommandEffect i r (r.loadByte x) 0
  | started (hi : i = .start) (hp : r.phase = .idle) : CommandEffect i r r.started 0
  | absorbed (x : Byte) (hi : i = .data x) (hp : r.phase = .run) (hc : r.complete = false) :
      CommandEffect i r (r.absorbed x) 0
  | surplus (x : Byte) (hi : i = .data x) (hp : r.phase = .run) (hc : r.complete = true) :
      CommandEffect i r (r.faulted .sizeMismatch) 0
  | finished (hi : i = .finish) (hp : r.phase = .run) (hc : r.complete = true) : CommandEffect i r r.finished 0
  | short (hi : i = .finish) (hp : r.phase = .run) (hc : r.complete = false) :
      CommandEffect i r (r.faulted .sizeMismatch) 0
  | readResult (hi : i = .rdck) (hp : r.phase = .done) : CommandEffect i r r r.result
  | readByte (sel : BitVec 2) (hi : i = .rdckb sel) (hp : r.phase = .done) :
      CommandEffect i r r ((byteOf r.result sel.toNat).setWidth 32)
  | confirmed (hi : i = .check) (hp : r.phase = .done) (hn : r.nld = 4) (he : r.result = r.stored) :
      CommandEffect i r r.confirmed 1
  | different (hi : i = .check) (hp : r.phase = .done) (hn : r.nld = 4) (he : r.result ≠ r.stored) :
      CommandEffect i r (r.faulted .checksumMismatch) 0
  | readStatus (hi : i = .rdst) : CommandEffect i r r r.status

/-- Every command answers a next state, with one of the effects above and exactly one response. -/
theorem exec_effect (i : Instr) (s : State) :
    ∃ r rsp, exec i s = .next (s.answer r rsp) ∧ CommandEffect i s.regs r rsp := by
  cases i with
  | clr => exact ⟨_, _, rfl, .cleared rfl⟩
  | rdst => exact ⟨_, _, rfl, .readStatus rfl⟩
  | setdim sel v =>
    rcases guarded_cases [.idle] (respond (s.regs.withDim sel v) 0 s) s with ⟨hp, h⟩ | ⟨-, hl, h⟩ | ⟨hp, hl, h⟩
    · exact ⟨_, _, h, .ignored hp (by simp) (by simp)⟩
    · exact ⟨_, _, h, .loadedDim sel v rfl (by simpa using hl)⟩
    · exact ⟨_, _, h, .misplaced hp (by simpa [Misplaced] using hl)⟩
  | start =>
    rcases guarded_cases [.idle] (respond s.regs.started 0 s) s with ⟨hp, h⟩ | ⟨-, hl, h⟩ | ⟨hp, hl, h⟩
    · exact ⟨_, _, h, .ignored hp (by simp) (by simp)⟩
    · exact ⟨_, _, h, .started rfl (by simpa using hl)⟩
    · exact ⟨_, _, h, .misplaced hp (by simpa [Misplaced] using hl)⟩
  | data x =>
    rcases guarded_cases [.run]
      (if s.regs.complete then raiseFault .sizeMismatch s else respond (s.regs.absorbed x) 0 s) s
      with ⟨hp, h⟩ | ⟨-, hl, h⟩ | ⟨hp, hl, h⟩
    · exact ⟨_, _, h, .ignored hp (by simp) (by simp)⟩
    · cases hc : s.regs.complete with
      | true => exact ⟨_, _, h.trans (by simp [hc]), .surplus x rfl (by simpa using hl) hc⟩
      | false => exact ⟨_, _, h.trans (by simp [hc]), .absorbed x rfl (by simpa using hl) hc⟩
    · exact ⟨_, _, h, .misplaced hp (by simpa [Misplaced] using hl)⟩
  | finish =>
    rcases guarded_cases [.run]
      (if s.regs.complete then respond s.regs.finished 0 s else raiseFault .sizeMismatch s) s
      with ⟨hp, h⟩ | ⟨-, hl, h⟩ | ⟨hp, hl, h⟩
    · exact ⟨_, _, h, .ignored hp (by simp) (by simp)⟩
    · cases hc : s.regs.complete with
      | true => exact ⟨_, _, h.trans (by simp [hc]), .finished rfl (by simpa using hl) hc⟩
      | false => exact ⟨_, _, h.trans (by simp [hc]), .short rfl (by simpa using hl) hc⟩
    · exact ⟨_, _, h, .misplaced hp (by simpa [Misplaced] using hl)⟩
  | rdck =>
    rcases guarded_cases [.done] (respond s.regs s.regs.result s) s with ⟨hp, h⟩ | ⟨-, hl, h⟩ | ⟨hp, hl, h⟩
    · exact ⟨_, _, h, .ignored hp (by simp) (by simp)⟩
    · exact ⟨_, _, h, .readResult rfl (by simpa using hl)⟩
    · exact ⟨_, _, h, .misplaced hp (by simpa [Misplaced] using hl)⟩
  | rdckb sel =>
    rcases guarded_cases [.done] (respond s.regs ((byteOf s.regs.result sel.toNat).setWidth 32) s) s
      with ⟨hp, h⟩ | ⟨-, hl, h⟩ | ⟨hp, hl, h⟩
    · exact ⟨_, _, h, .ignored hp (by simp) (by simp)⟩
    · exact ⟨_, _, h, .readByte sel rfl (by simpa using hl)⟩
    · exact ⟨_, _, h, .misplaced hp (by simpa [Misplaced] using hl)⟩
  | ldckb x =>
    rcases guarded_cases [.idle, .run, .done]
      (if s.regs.nld = 4 then raiseFault .sequence s else respond (s.regs.loadByte x) 0 s) s
      with ⟨hp, h⟩ | ⟨hp, -, h⟩ | ⟨hp, hl, h⟩
    · exact ⟨_, _, h, .ignored hp (by simp) (by simp)⟩
    · by_cases hn : s.regs.nld = 4
      · exact ⟨_, _, h.trans (by simp [hn]), .misplaced hp (by simp [Misplaced, hn])⟩
      · exact ⟨_, _, h.trans (by simp [hn]), .loadedByte x rfl hp hn⟩
    · exact absurd hl (by cases hph : s.regs.phase <;> simp_all)
  | check =>
    rcases guarded_cases [.done]
      (if s.regs.nld ≠ 4 then raiseFault .sequence s
       else if s.regs.result ≠ s.regs.stored then raiseFault .checksumMismatch s
       else respond s.regs.confirmed 1 s) s
      with ⟨hp, h⟩ | ⟨hp, hl, h⟩ | ⟨hp, hl, h⟩
    · exact ⟨_, _, h, .ignored hp (by simp) (by simp)⟩
    · by_cases hn : s.regs.nld = 4
      · by_cases he : s.regs.result = s.regs.stored
        · exact ⟨_, _, h.trans (by simp [hn, he]), .confirmed rfl (by simpa using hl) hn he⟩
        · exact ⟨_, _, h.trans (by simp [hn, he]), .different rfl (by simpa using hl) hn he⟩
      · exact ⟨_, _, h.trans (by simp [hn]), .misplaced hp (by simp [Misplaced, hn])⟩
    · exact ⟨_, _, h, .misplaced hp (.inl (by simpa using hl))⟩

/-- Everything an illegal word can do. -/
theorem illegalWord_cases (s : State) :
    (s.regs.phase = .fault ∧ illegalWord s = .next (s.answer s.regs 0)) ∨
    (s.regs.phase ≠ .fault ∧ illegalWord s = .next (s.answer (s.regs.faulted .illegalCmd) 0)) := by
  by_cases h : s.regs.phase = .fault <;> simp [illegalWord, h]

/-- Everything one step can do. -/
theorem step_cases (s : State) :
    (s.input = [] ∧ step s = .next s) ∨
    (∃ rest, s.input = .reset :: rest ∧ step s = .next { s with regs := Regs.reset, input := rest }) ∨
    (∃ cw rest i r rsp, s.input = .command cw :: rest ∧ decode cw = .ok i ∧ CommandEffect i s.regs r rsp ∧
      step s = .next ((s.withInput rest).answer r rsp)) ∨
    (∃ cw rest e, s.input = .command cw :: rest ∧ decode cw = .error e ∧ s.regs.phase = .fault ∧
      step s = .next ((s.withInput rest).answer s.regs 0)) ∨
    (∃ cw rest e, s.input = .command cw :: rest ∧ decode cw = .error e ∧ s.regs.phase ≠ .fault ∧
      step s = .next ((s.withInput rest).answer (s.regs.faulted .illegalCmd) 0)) := by
  cases hin : s.input with
  | nil => exact .inl ⟨rfl, by simp [step, hin, holdState]⟩
  | cons e rest =>
    cases e with
    | reset => exact .inr (.inl ⟨rest, rfl, by simp [step, hin, performEvent, hardwareReset, State.withInput]⟩)
    | command cw =>
      cases hd : decode cw with
      | ok i =>
        obtain ⟨r, rsp, hx, he⟩ := exec_effect i (s.withInput rest)
        exact .inr (.inr (.inl ⟨cw, rest, i, r, rsp, rfl, hd, he,
          by simp [step, hin, performEvent, performWord, hd, hx]⟩))
      | error e =>
        have hs : step s = illegalWord (s.withInput rest) := by simp [step, hin, performEvent, performWord, hd]
        rcases illegalWord_cases (s.withInput rest) with ⟨hp, h⟩ | ⟨hp, h⟩
        · exact .inr (.inr (.inr (.inl ⟨cw, rest, e, rfl, hd, hp, hs.trans h⟩)))
        · exact .inr (.inr (.inr (.inr ⟨cw, rest, e, rfl, hd, hp, hs.trans h⟩)))

/-- A command neither reads nor writes what the host will present, and only adds to the responses. -/
theorem exec_ports (i : Instr) (r : Regs) : ∃ r' rsp, CommandEffect i r r' rsp ∧
    ∀ input responses, exec i ⟨r, input, responses⟩ = .next ⟨r', input, responses ++ [rsp]⟩ := by
  obtain ⟨r', rsp, h, he⟩ := exec_effect i ⟨r, [], []⟩
  refine ⟨r', rsp, he, fun input responses => ?_⟩
  have hg : ∀ (legal : List Phase) (f g : Host.Outcome State Fault Refusal),
      (f = .next ⟨r', [], [rsp]⟩ → g = .next ⟨r', input, responses ++ [rsp]⟩) →
      guarded legal f ⟨r, [], []⟩ = .next ⟨r', [], [rsp]⟩ →
      guarded legal g ⟨r, input, responses⟩ = .next ⟨r', input, responses ++ [rsp]⟩ := by
    intro legal f g hfg hf
    unfold guarded at hf ⊢
    split_ifs at hf ⊢ <;> simp_all [State.answer]
  have h' : exec i ⟨r, [], []⟩ = .next ⟨r', [], [rsp]⟩ := h
  cases i with
  | clr | rdst => simp_all [exec, execClr, execRdst, State.answer]
  | setdim | start | rdck | rdckb =>
    exact hg _ _ _ (fun hf => by simpa [State.answer] using hf) h'
  | data | finish | ldckb | check =>
    refine hg _ _ _ (fun hf => ?_) h'
    dsimp only at hf ⊢
    split_ifs at hf ⊢ <;> simp_all [State.answer]

/-! ### Runs -/

/-- Presenting a word performs it and leaves the rest of the stream. -/
theorem present_eq (cw : Word) (s : State) : present cw s = performWord cw s := rfl

/-- A word neither reads nor writes the rest of the stream, and adds one response. -/
theorem performWord_ports (cw : Word) (r : Regs) : ∃ r' rsp, ∀ input responses,
    performWord cw ⟨r, input, responses⟩ = .next ⟨r', input, responses ++ [rsp]⟩ := by
  cases hd : decode cw with
  | ok i =>
    obtain ⟨r', rsp, -, h⟩ := exec_ports i r
    exact ⟨r', rsp, fun input responses => by simp [performWord, hd, h]⟩
  | error e => by_cases h : r.phase = .fault <;> simp [performWord, hd, illegalWord, h, State.answer]

@[simp] theorem presentAll_nil (s : State) : presentAll [] s = .next s := rfl

theorem presentAll_cons (cw : Word) (cws : List Word) (s : State) :
    presentAll (cw :: cws) s = andThen (performWord cw s) (presentAll cws) := rfl

/-- A list of words leaves the rest of the stream alone and adds one response for each. -/
theorem presentAll_ports (cws : List Word) (r : Regs) : ∃ r' rsps, rsps.length = cws.length ∧
    ∀ input responses, presentAll cws ⟨r, input, responses⟩ = .next ⟨r', input, responses ++ rsps⟩ := by
  induction cws generalizing r with
  | nil => exact ⟨r, [], rfl, by simp⟩
  | cons cw cws ih =>
    obtain ⟨r₁, rsp, h₁⟩ := performWord_ports cw r
    obtain ⟨r₂, rsps, hl, h₂⟩ := ih r₁
    exact ⟨r₂, rsp :: rsps, by simp [hl], fun input responses => by
      rw [presentAll_cons, h₁, andThen_next, h₂]; simp⟩

theorem presentAll_append (ws ws' : List Word) (s : State) :
    presentAll (ws ++ ws') s = andThen (presentAll ws s) (presentAll ws') := by
  induction ws generalizing s with
  | nil => rfl
  | cons cw ws ih =>
    rw [List.cons_append, presentAll_cons, presentAll_cons, andThen_assoc]
    exact congrArg _ (funext ih)

theorem issue_append (is is' : List Instr) (s : State) :
    issue (is ++ is') s = andThen (issue is s) (issue is') := by
  rw [issue, List.map_append, presentAll_append]
  rfl

end Sys2Proof.Machine
end

