-- ==== Sys2Proof/Laws/PerInstr.lean ====
section
/-! SUPPORT. Facts of every command as syntax, one lemma per constructor: its operands are in the ranges of 30_encoding.md R65, and
its word selects its own row of R59's opcode map. -/

namespace Sys2Proof.Laws

open Sys2Proof

/-! ### The operands are in range (R58, R65) -/

/-- The command is well-formed. -/
def OperandsInRange.Statement (i : Instr) : Prop := i.wellFormed = true

theorem OperandsInRange.clr : OperandsInRange.Statement .clr := rfl

theorem OperandsInRange.setdim (sel : DimReg) (imm16 : Half) : OperandsInRange.Statement (.setdim sel imm16) := by
  have := imm16.isLt
  simp [OperandsInRange.Statement, Instr.wellFormed, Instr.toAsm, Asm.wellFormed]
  omega

theorem OperandsInRange.start : OperandsInRange.Statement .start := rfl

theorem OperandsInRange.data (imm8 : Byte) : OperandsInRange.Statement (.data imm8) := by
  have := imm8.isLt
  simp [OperandsInRange.Statement, Instr.wellFormed, Instr.toAsm, Asm.wellFormed]
  omega

theorem OperandsInRange.finish : OperandsInRange.Statement .finish := rfl

theorem OperandsInRange.rdck : OperandsInRange.Statement .rdck := rfl

theorem OperandsInRange.rdckb (sel : BitVec 2) : OperandsInRange.Statement (.rdckb sel) := by
  have := sel.isLt
  simp [OperandsInRange.Statement, Instr.wellFormed, Instr.toAsm, Asm.wellFormed]
  omega

theorem OperandsInRange.ldckb (imm8 : Byte) : OperandsInRange.Statement (.ldckb imm8) := by
  have := imm8.isLt
  simp [OperandsInRange.Statement, Instr.wellFormed, Instr.toAsm, Asm.wellFormed]
  omega

theorem OperandsInRange.check : OperandsInRange.Statement .check := rfl

theorem OperandsInRange.rdst : OperandsInRange.Statement .rdst := rfl

/-! ### The word is in the command's row (R59) -/

/-- The command's word selects the command's row. -/
def WordInRow.Statement (i : Instr) : Prop := selectsRow (encode i) (rowOf i) = true

/-- A mask whose low `k` bits are zero drops a field placed at bit 0. -/
theorem place_zero_and {k : Nat} (x : BitVec k) (mask : Word) (h : ∀ j < k, mask.getLsbD j = false) :
    place x 0 &&& mask = 0 := by
  ext j hj
  have hp := place_getLsbD x 0 hj
  by_cases hk : j < k
  · have := h j hk
    simp_all
  · simp_all [BitVec.getLsbD_of_ge x j (by omega)]

/-- Masking commutes with or. -/
theorem or_and_mask (v v' mask : Word) : (v ||| v') &&& mask = (v &&& mask) ||| (v' &&& mask) := by
  ext j hj
  simp [Bool.and_or_distrib_right]

theorem WordInRow.clr : WordInRow.Statement .clr := by unfold WordInRow.Statement; decide

theorem WordInRow.setdim (sel : DimReg) (imm16 : Half) : WordInRow.Statement (.setdim sel imm16) := by
  have h : place imm16 0 &&& (0xFFFC0000 : Word) = 0 := place_zero_and _ _ (by decide)
  cases sel <;>
    simp only [WordInRow.Statement, selectsRow, rowOf, encode, formatH, or_and_mask, h] <;> decide

theorem WordInRow.start : WordInRow.Statement .start := by unfold WordInRow.Statement; decide

theorem WordInRow.data (imm8 : Byte) : WordInRow.Statement (.data imm8) := by
  have h : place imm8 0 &&& (0xFFFFFF00 : Word) = 0 := place_zero_and _ _ (by decide)
  simp only [WordInRow.Statement, selectsRow, rowOf, encode, formatB, or_and_mask, h]
  decide

theorem WordInRow.finish : WordInRow.Statement .finish := by unfold WordInRow.Statement; decide

theorem WordInRow.rdck : WordInRow.Statement .rdck := by unfold WordInRow.Statement; decide

theorem WordInRow.rdckb (sel : BitVec 2) : WordInRow.Statement (.rdckb sel) := by
  revert sel; unfold WordInRow.Statement; decide

theorem WordInRow.ldckb (imm8 : Byte) : WordInRow.Statement (.ldckb imm8) := by
  have h : place imm8 0 &&& (0xFFFFFF00 : Word) = 0 := place_zero_and _ _ (by decide)
  simp only [WordInRow.Statement, selectsRow, rowOf, encode, formatB, or_and_mask, h]
  decide

theorem WordInRow.check : WordInRow.Statement .check := by unfold WordInRow.Statement; decide

theorem WordInRow.rdst : WordInRow.Statement .rdst := by unfold WordInRow.Statement; decide

end Sys2Proof.Laws
end

