-- ==== Sys2Proof/Tests/Slice0.lean ====
section
/-! SUPPORT. The model's own tests: small named theorems whose expected values are the spec's own (95_test_vectors.md unless
another file is named), and, for every obligation with hypotheses, a witness that they can be met. -/

namespace Sys2Proof.Tests

-- One theorem after another: the tests side by side start more threads than a small machine allows.
set_option Elab.async false

open Sys2Proof Sys2Proof.Machine Sys2Proof.Claims

/-! ### Helpers -/

/-- The state a step answers, if it answers one. -/
def after (o : Host.Outcome State Fault Refusal) : Option State :=
  match o with
  | .next s => some s
  | _ => none

/-- The registers a step answers. -/
def regsAfter (o : Host.Outcome State Fault Refusal) : Option Regs := (after o).map State.regs

/-- The responses given after a step. -/
def responsesAfter (o : Host.Outcome State Fault Refusal) : Option (List Word) := (after o).map State.responses

/-- A state with these registers and nothing presented or answered. -/
def withRegs (r : Regs) : State := { State.reset with regs := r }

/-- A 2 by 2 by 1 by 1 frame of 95_test_vectors.md P1, in a phase, with a count. -/
def frame22 (phase : Phase) (count : BitVec 64) (crc result : Word) : Regs :=
  { Regs.reset with w := 2, h := 2, d := 1, b := 1, count := count, crc := crc, result := result, phase := phase }

/-- RUN after START of P1. -/
def run0 : Regs := frame22 .run 0 0xDEBB20E3 0

/-- RUN with three of four bytes absorbed. -/
def run3 : Regs := frame22 .run 3 0x958670EC 0

/-- RUN with all four bytes absorbed. -/
def run4 : Regs := frame22 .run 4 0x30207999 0

/-- DONE of P1. -/
def done4 : Regs := frame22 .done 4 0x30207999 0xCFDF8666

/-- DONE of P2, its stored checksum loaded. -/
def doneLoaded : Regs := { done4 with stored := 0xCFDF8666, nld := 4 }

/-- DONE of P3, with another stored checksum. -/
def doneOther : Regs := { frame22 .done 4 0x7AE26BC8 0x851D9437 with stored := 0xCFDF8666, nld := 4 }

/-- FAULT of P3 (V52, V84). -/
def fault4 : Regs := { doneOther with phase := .fault, errcode := .checksumMismatch }

/-- The largest declared length, V42, with all but the last byte counted. -/
def largest (count : BitVec 64) : Regs :=
  { Regs.reset with w := 65535, h := 65535, d := 65535, b := 65535, count := count, phase := .run }

/-- A state whose next event is a command word. -/
def presented (r : Regs) (cw : Word) : State := (withRegs r).presenting cw

/-! ### WellFormed refuses what R65 and R92 to R94 put out of range -/

theorem test_wf_setdim : (Asm.setdim .w 65535).wellFormed = true ∧ (Asm.setdim .w 65536).wellFormed = false := by decide

theorem test_wf_data : (Asm.data 255).wellFormed = true ∧ (Asm.data 256).wellFormed = false := by decide

theorem test_wf_rdckb : (Asm.rdckb 3).wellFormed = true ∧ (Asm.rdckb 4).wellFormed = false := by decide

theorem test_wf_ldckb : (Asm.ldckb 255).wellFormed = true ∧ (Asm.ldckb 256).wellFormed = false := by decide

theorem test_wf_setdims : (Asm.setdims 65535 65535 65535 65535).wellFormed = true ∧
    (Asm.setdims 65536 1 1 1).wellFormed = false ∧ (Asm.setdims 1 65536 1 1).wellFormed = false ∧
    (Asm.setdims 1 1 65536 1).wellFormed = false ∧ (Asm.setdims 1 1 1 65536).wellFormed = false := by decide

theorem test_wf_payload : (Asm.payload [0, 255]).wellFormed = true ∧ (Asm.payload [0, 256]).wellFormed = false := by decide

theorem test_wf_ldck : (Asm.ldck 4294967295).wellFormed = true ∧ (Asm.ldck 4294967296).wellFormed = false := by decide

/-! ### Decoding: words written out from the formats R54 to R57 (V43 to V51) -/

theorem test_decode_clr : decode 0b00000001_000000000000000000000000#32 = .ok .clr := by decide

theorem test_decode_setdim_w : decode 0b00000010_000000_00_0000000010000000#32 = .ok (.setdim .w 128) := by decide

theorem test_decode_setdim_h : decode 0b00000010_000000_01_0000000010000000#32 = .ok (.setdim .h 128) := by decide

theorem test_decode_setdim_d : decode 0b00000010_000000_10_0000000000000001#32 = .ok (.setdim .d 1) := by decide

theorem test_decode_setdim_b : decode 0b00000010_000000_11_1111111111111111#32 = .ok (.setdim .b 65535) := by decide

theorem test_decode_start : decode 0b00000011_000000000000000000000000#32 = .ok .start := by decide

theorem test_decode_data : decode 0b00000100_0000000000000000_10100101#32 = .ok (.data 0xA5) := by decide

theorem test_decode_finish : decode 0b00000101_000000000000000000000000#32 = .ok .finish := by decide

theorem test_decode_rdck : decode 0b00000110_000000000000000000000000#32 = .ok .rdck := by decide

theorem test_decode_rdckb : decode 0b00000111_000000_10_0000000000000000#32 = .ok (.rdckb 2) ∧
    decode 0x07030000#32 = .ok (.rdckb 3) := by decide

theorem test_decode_ldckb : decode 0b00001000_0000000000000000_11001111#32 = .ok (.ldckb 0xCF) := by decide

theorem test_decode_check : decode 0b00001001_000000000000000000000000#32 = .ok .check := by decide

theorem test_decode_rdst : decode 0b00001010_000000000000000000000000#32 = .ok .rdst := by decide

/-- V50. -/
theorem test_undefined_opcodes : ([0x00000000, 0xFFFFFFFF, 0x0B000000, 0x10000000] : List Word).map decode =
    [.error (.undefinedOpcode 0x00), .error (.undefinedOpcode 0xFF), .error (.undefinedOpcode 0x0B),
      .error (.undefinedOpcode 0x10)] := by decide

/-- V51. -/
theorem test_reserved_bits : (([0x01000001, 0x02040000, 0x03000100, 0x04000100, 0x04010000, 0x05800000, 0x06000001,
    0x07000001, 0x07040000, 0x08000100, 0x09000001, 0x0A000001] : List Word).all fun cw =>
      decide (decode cw = .error (.reservedBits (fieldOpcode cw)))) = true := by decide

/-- R65's table, in the other direction. -/
theorem test_encode : ([.clr, .setdim .h 128, .start, .data 0xA5, .finish, .rdck, .rdckb 2, .ldckb 0xCF, .check, .rdst] :
    List Instr).map encode = [0x01000000, 0x02010080, 0x03000000, 0x040000A5, 0x05000000, 0x06000000, 0x07020000,
      0x080000CF, 0x09000000, 0x0A000000] := by decide

/-- The rows of the model are those of spec/opcode_table.json. -/
theorem test_opcode_rows : opcodeRows = opcodeMap := by decide

theorem test_opcode_rows_disjoint :
    (opcodeRows.Pairwise fun a b => a.1 &&& (a.2 &&& b.2) ≠ b.1 &&& (a.2 &&& b.2)) := by decide

/-- The host's numbering: bits above `nbits` are zero. -/
theorem test_decode_table_word : decodeTableWord 32 0x0201FFFF = some (.setdim .h 0xFFFF) ∧
    decodeTableWord 32 0x0B000000 = none ∧ decodeTableWord 24 0x01000000 = none := by decide

/-- From reset, the word placed for the host is the first one performed. -/
theorem test_with_fetch_word : responsesAfter (step (State.reset.withFetchWord 32 0x0A000000)) = some [0] ∧
    regsAfter (step (State.reset.withFetchWord 32 0x02000080)) = some { Regs.reset with w := 128 } := by decide

/-! ### The CRC function (R68 to R80; V1 to V42) -/

/-- V27 to V30. -/
theorem test_bitstep : ([0xFFFFFFFF, 1, 2, 0] : List Word).map (bitstep Config.params) =
    [0x92477CDF, 0xEDB88320, 0x00000001, 0x00000000] := by decide

/-- V31. -/
theorem test_bitsteps : ((List.range 8).map fun k => bitsteps Config.params (k + 1) (0xFFFFFFFF ^^^ 0)) =
    [0x92477CDF, 0xA49B3D4F, 0xBFF51D87, 0xB2420DE3, 0xB49985D1, 0xB7F441C8, 0x5BFA20E4, 0x2DFD1072] := by
  decide +kernel

/-- V2, the published check value; V11 with the prefix in front. -/
theorem test_check_value :
    crc32 Config.params [0x31, 0x32, 0x33, 0x34, 0x35, 0x36, 0x37, 0x38, 0x39] = 0xCBF43926 ∧
    frameChecksum Config.params [0x31, 0x32, 0x33, 0x34, 0x35, 0x36, 0x37, 0x38, 0x39] = 0x22896B0A := by decide +kernel

/-- V2 by table. -/
theorem test_check_value_by_table : crc32 { Config.params with impl := .tableDriven }
    [0x31, 0x32, 0x33, 0x34, 0x35, 0x36, 0x37, 0x38, 0x39] = 0xCBF43926 := by decide +kernel

/-- V1, V7, V14. -/
theorem test_crc32_prefix : crc32 Config.params [] = 0 ∧ crc32 Config.params [0, 0, 0, 0] = 0x2144DF1C ∧
    frameChecksum Config.params [0, 1, 2, 3] = 0xCFDF8666 := by decide +kernel

/-- V18: the residue of R80. -/
theorem test_residue : crc32 Config.params
    [0x31, 0x32, 0x33, 0x34, 0x35, 0x36, 0x37, 0x38, 0x39, 0x26, 0x39, 0xF4, 0xCB] = 0x2144DF1C := by decide +kernel

/-- V38, V39: one byte after the prefix, bit by bit and by table. -/
theorem test_absorb_after_prefix : absorbSerial Config.params 0xDEBB20E3 0 = 0x39DD08E2 ∧
    absorbTable Config.params 0xDEBB20E3 0 = 0x39DD08E2 ∧ absorbBits Config.params 0xDEBB20E3 0 = 0x39DD08E2 := by
  decide +kernel

/-- R6: `CRC_POLYR` is the bit-reversal of `CRC_POLY`. -/
theorem test_polynomial_reversed :
    ((List.range 32).all fun k => Config.crcPoly.getLsbD k == Config.params.polyr.getLsbD (31 - k)) = true := by decide

/-- 40_crc_core.md R72, entries 0 to 31. -/
def listedTable0 : List Word :=
  [0x00000000, 0x77073096, 0xEE0E612C, 0x990951BA, 0x076DC419, 0x706AF48F, 0xE963A535, 0x9E6495A3,
    0x0EDB8832, 0x79DCB8A4, 0xE0D5E91E, 0x97D2D988, 0x09B64C2B, 0x7EB17CBD, 0xE7B82D07, 0x90BF1D91,
    0x1DB71064, 0x6AB020F2, 0xF3B97148, 0x84BE41DE, 0x1ADAD47D, 0x6DDDE4EB, 0xF4D4B551, 0x83D385C7,
    0x136C9856, 0x646BA8C0, 0xFD62F97A, 0x8A65C9EC, 0x14015C4F, 0x63066CD9, 0xFA0F3D63, 0x8D080DF5]

/-- 40_crc_core.md R72, entries 32 to 63. -/
def listedTable1 : List Word :=
  [0x3B6E20C8, 0x4C69105E, 0xD56041E4, 0xA2677172, 0x3C03E4D1, 0x4B04D447, 0xD20D85FD, 0xA50AB56B,
    0x35B5A8FA, 0x42B2986C, 0xDBBBC9D6, 0xACBCF940, 0x32D86CE3, 0x45DF5C75, 0xDCD60DCF, 0xABD13D59,
    0x26D930AC, 0x51DE003A, 0xC8D75180, 0xBFD06116, 0x21B4F4B5, 0x56B3C423, 0xCFBA9599, 0xB8BDA50F,
    0x2802B89E, 0x5F058808, 0xC60CD9B2, 0xB10BE924, 0x2F6F7C87, 0x58684C11, 0xC1611DAB, 0xB6662D3D]

/-- 40_crc_core.md R72, entries 64 to 95. -/
def listedTable2 : List Word :=
  [0x76DC4190, 0x01DB7106, 0x98D220BC, 0xEFD5102A, 0x71B18589, 0x06B6B51F, 0x9FBFE4A5, 0xE8B8D433,
    0x7807C9A2, 0x0F00F934, 0x9609A88E, 0xE10E9818, 0x7F6A0DBB, 0x086D3D2D, 0x91646C97, 0xE6635C01,
    0x6B6B51F4, 0x1C6C6162, 0x856530D8, 0xF262004E, 0x6C0695ED, 0x1B01A57B, 0x8208F4C1, 0xF50FC457,
    0x65B0D9C6, 0x12B7E950, 0x8BBEB8EA, 0xFCB9887C, 0x62DD1DDF, 0x15DA2D49, 0x8CD37CF3, 0xFBD44C65]

/-- 40_crc_core.md R72, entries 96 to 127. -/
def listedTable3 : List Word :=
  [0x4DB26158, 0x3AB551CE, 0xA3BC0074, 0xD4BB30E2, 0x4ADFA541, 0x3DD895D7, 0xA4D1C46D, 0xD3D6F4FB,
    0x4369E96A, 0x346ED9FC, 0xAD678846, 0xDA60B8D0, 0x44042D73, 0x33031DE5, 0xAA0A4C5F, 0xDD0D7CC9,
    0x5005713C, 0x270241AA, 0xBE0B1010, 0xC90C2086, 0x5768B525, 0x206F85B3, 0xB966D409, 0xCE61E49F,
    0x5EDEF90E, 0x29D9C998, 0xB0D09822, 0xC7D7A8B4, 0x59B33D17, 0x2EB40D81, 0xB7BD5C3B, 0xC0BA6CAD]

/-- 40_crc_core.md R72, entries 128 to 159. -/
def listedTable4 : List Word :=
  [0xEDB88320, 0x9ABFB3B6, 0x03B6E20C, 0x74B1D29A, 0xEAD54739, 0x9DD277AF, 0x04DB2615, 0x73DC1683,
    0xE3630B12, 0x94643B84, 0x0D6D6A3E, 0x7A6A5AA8, 0xE40ECF0B, 0x9309FF9D, 0x0A00AE27, 0x7D079EB1,
    0xF00F9344, 0x8708A3D2, 0x1E01F268, 0x6906C2FE, 0xF762575D, 0x806567CB, 0x196C3671, 0x6E6B06E7,
    0xFED41B76, 0x89D32BE0, 0x10DA7A5A, 0x67DD4ACC, 0xF9B9DF6F, 0x8EBEEFF9, 0x17B7BE43, 0x60B08ED5]

/-- 40_crc_core.md R72, entries 160 to 191. -/
def listedTable5 : List Word :=
  [0xD6D6A3E8, 0xA1D1937E, 0x38D8C2C4, 0x4FDFF252, 0xD1BB67F1, 0xA6BC5767, 0x3FB506DD, 0x48B2364B,
    0xD80D2BDA, 0xAF0A1B4C, 0x36034AF6, 0x41047A60, 0xDF60EFC3, 0xA867DF55, 0x316E8EEF, 0x4669BE79,
    0xCB61B38C, 0xBC66831A, 0x256FD2A0, 0x5268E236, 0xCC0C7795, 0xBB0B4703, 0x220216B9, 0x5505262F,
    0xC5BA3BBE, 0xB2BD0B28, 0x2BB45A92, 0x5CB36A04, 0xC2D7FFA7, 0xB5D0CF31, 0x2CD99E8B, 0x5BDEAE1D]

/-- 40_crc_core.md R72, entries 192 to 223. -/
def listedTable6 : List Word :=
  [0x9B64C2B0, 0xEC63F226, 0x756AA39C, 0x026D930A, 0x9C0906A9, 0xEB0E363F, 0x72076785, 0x05005713,
    0x95BF4A82, 0xE2B87A14, 0x7BB12BAE, 0x0CB61B38, 0x92D28E9B, 0xE5D5BE0D, 0x7CDCEFB7, 0x0BDBDF21,
    0x86D3D2D4, 0xF1D4E242, 0x68DDB3F8, 0x1FDA836E, 0x81BE16CD, 0xF6B9265B, 0x6FB077E1, 0x18B74777,
    0x88085AE6, 0xFF0F6A70, 0x66063BCA, 0x11010B5C, 0x8F659EFF, 0xF862AE69, 0x616BFFD3, 0x166CCF45]

/-- 40_crc_core.md R72, entries 224 to 255. -/
def listedTable7 : List Word :=
  [0xA00AE278, 0xD70DD2EE, 0x4E048354, 0x3903B3C2, 0xA7672661, 0xD06016F7, 0x4969474D, 0x3E6E77DB,
    0xAED16A4A, 0xD9D65ADC, 0x40DF0B66, 0x37D83BF0, 0xA9BCAE53, 0xDEBB9EC5, 0x47B2CF7F, 0x30B5FFE9,
    0xBDBDF21C, 0xCABAC28A, 0x53B39330, 0x24B4A3A6, 0xBAD03605, 0xCDD70693, 0x54DE5729, 0x23D967BF,
    0xB3667A2E, 0xC4614AB8, 0x5D681B02, 0x2A6F2B94, 0xB40BBE37, 0xC30C8EA1, 0x5A05DF1B, 0x2D02EF8D]

/-- The table regenerated from its definition is the spec's listing. -/
theorem test_table_is_the_listing : ((List.range 256).map fun i => tableEntry Config.params (BitVec.ofNat 8 i)) =
    listedTable0 ++ listedTable1 ++ listedTable2 ++ listedTable3 ++ listedTable4 ++ listedTable5 ++ listedTable6 ++
      listedTable7 := by decide +kernel

/-! ### One step of each command (V52 to V85) -/

/-- V52. -/
theorem test_clr : regsAfter (exec .clr (withRegs fault4)) = some Regs.reset ∧
    responsesAfter (exec .clr (withRegs fault4)) = some [0] := by decide

/-- V53, V54. -/
theorem test_setdim : regsAfter (exec (.setdim .w 128) State.reset) = some { Regs.reset with w := 128 } ∧
    regsAfter (exec (.setdim .w 2) (withRegs { Regs.reset with w := 128 })) = some { Regs.reset with w := 2 } := by decide

/-- V55. -/
theorem test_setdim_in_run : regsAfter (exec (.setdim .w 1) (withRegs run0)) =
    some { run0 with phase := .fault, errcode := .sequence } ∧
    ({ run0 with phase := .fault, errcode := .sequence } : Regs).status = 0x23 := by decide

/-- V56: the second byte stands above the first. -/
theorem test_ldckb : regsAfter (exec (.ldckb 0x86) (withRegs { Regs.reset with stored := 0x66, nld := 1 })) =
    some { Regs.reset with stored := 0x8666, nld := 2 } ∧
    ({ Regs.reset with stored := 0x8666, nld := 2 } : Regs).status = 0x200 := by decide

/-- V57. -/
theorem test_ldckb_fifth : (regsAfter (exec (.ldckb 0x05) (withRegs { Regs.reset with stored := 0x04030201, nld := 4 }))) =
    some { Regs.reset with stored := 0x04030201, nld := 4, phase := .fault, errcode := .sequence } := by decide

/-- V59. -/
theorem test_start : regsAfter (exec .start State.reset) = some { Regs.reset with crc := 0xDEBB20E3, phase := .run } := by
  decide +kernel

/-- V60. -/
theorem test_start_in_run : (regsAfter (exec .start (withRegs run0))).map Regs.status = some 0x23 := by decide

/-- V61, V62. -/
theorem test_data : regsAfter (exec (.data 0) (withRegs run0)) = some { run0 with crc := 0x39DD08E2, count := 1 } ∧
    regsAfter (exec (.data 4) (withRegs run4)) = some { run4 with phase := .fault, errcode := .sizeMismatch } := by
  decide +kernel

/-- V63. -/
theorem test_data_of_empty_frame : regsAfter (exec (.data 0) (withRegs { Regs.reset with phase := .run })) =
    some { Regs.reset with phase := .fault, errcode := .sizeMismatch } := by decide

/-- V65, V66. -/
theorem test_finish : regsAfter (exec .finish (withRegs run4)) = some done4 ∧
    regsAfter (exec .finish (withRegs run3)) = some { run3 with phase := .fault, errcode := .sizeMismatch } := by decide

/-- V69: the product is not reduced. -/
theorem test_finish_exact_product : regsAfter (exec .finish (withRegs (largest 1))) =
    some { largest 1 with phase := .fault, errcode := .sizeMismatch } ∧ (largest 0).expect = 18445618199572250625 := by
  decide

/-- V71, V73. -/
theorem test_rdck : responsesAfter (exec .rdck (withRegs done4)) = some [0xCFDF8666] ∧
    regsAfter (exec .rdck State.reset) = some { Regs.reset with phase := .fault, errcode := .sequence } := by decide

/-- V84. -/
theorem test_rdck_in_fault : after (exec .rdck (withRegs fault4)) = some { withRegs fault4 with responses := [0] } := by
  decide

/-- V72. -/
theorem test_rdckb : responsesAfter (exec (.rdckb 0) (withRegs done4)) = some [0x66] ∧
    responsesAfter (exec (.rdckb 1) (withRegs done4)) = some [0x86] ∧
    responsesAfter (exec (.rdckb 2) (withRegs done4)) = some [0xDF] ∧
    responsesAfter (exec (.rdckb 3) (withRegs done4)) = some [0xCF] := by decide

/-- V74, V75; the end of a strictly verified run, 70_reset_and_hazards.md R129. -/
theorem test_check : after (exec .check (withRegs doneLoaded)) =
    some { withRegs { doneLoaded with matched := true } with responses := [1] } ∧
    regsAfter (exec .check (withRegs doneOther)) = some fault4 ∧ fault4.status = 0x443 ∧
    ({ doneLoaded with matched := true } : Regs).strictlyVerified = true ∧ doneLoaded.strictlyVerified = false := by decide

/-- V76, V77. -/
theorem test_check_incomplete :
    (regsAfter (exec .check (withRegs { done4 with stored := 0x66, nld := 1 }))).map Regs.status = some 0x123 ∧
    (regsAfter (exec .check (withRegs { Regs.reset with phase := .done }))).map Regs.status = some 0x23 := by decide

/-- V78, V79. -/
theorem test_rdst : responsesAfter (exec .rdst (withRegs { doneLoaded with matched := true })) = some [0x406] ∧
    after (exec .rdst (withRegs fault4)) = some { withRegs fault4 with responses := [0x443] } := by decide

/-- V80, V81: decode comes before the phase. -/
theorem test_illegal_word : regsAfter (step (presented run0 0x04000100)) =
    some { run0 with phase := .fault, errcode := .illegalCmd } ∧
    regsAfter (step (presented Regs.reset 0x07000001)) =
      some { Regs.reset with phase := .fault, errcode := .illegalCmd } := by decide

/-- V82, V83. -/
theorem test_ignored_in_fault : after (step (presented fault4 0x04000000)) =
    some { withRegs fault4 with responses := [0] } ∧
    after (step (presented fault4 0x01000001)) = some { withRegs fault4 with responses := [0] } := by decide

/-- 70_reset_and_hazards.md R123, R124. -/
theorem test_hardware_reset : after (step { withRegs fault4 with input := [.reset] }) = some State.reset := by decide

/-! ### The host's side -/

/-- R65, R66, R92 to R94: text to words. -/
theorem test_assemble_text :
    assembleText "SETDIMS 2, 0x2,1,1 ; the frame\nLDCK 0xCFDF8666\n\nPAYLOAD 7,0xFF".toList =
      some [0x02000002, 0x02010002, 0x02020001, 0x02030001, 0x08000066, 0x08000086, 0x080000DF, 0x080000CF, 0x04000007,
        0x040000FF] ∧
    assembleText "SETDIM W, 65536".toList = none ∧ assembleText "SETDIM X, 1".toList = none ∧
    assembleText "RDST\nRDCKB 0x3\nSETDIM B , 65535".toList = some [0x0A000000, 0x07030000, 0x0203FFFF] := by
  decide +kernel

/-- P1's frame. -/
def frameP1 : EncodeArgs where
  frameNumber := 7
  timestampMicros := 1000000
  width := 2
  height := 2
  depth := 1
  bytesPerVoxel := 1
  payload := [0, 1, 2, 3]

/-- P1 without its last command: the status read in DONE. -/
theorem test_encode_commands : (after (issue (encodeCommands frameP1) State.reset)).map (fun s => (s.regs, lastResponse s)) =
    some (done4, 2) := by decide +kernel

/-- P1's file, from offset 4 on (the magic is a free value). -/
theorem test_encode_file :
    (match cksumEncode frameP1 State.reset with
      | .next (_, .ok file) => file.drop 4
      | _ => []) =
    [0x02, 0x00, 0x02, 0x00, 0x01, 0x00, 0x01, 0x00, 0x07, 0x00, 0x00, 0x00, 0x40, 0x42, 0x0F, 0x00, 0x00, 0x00, 0x00, 0x00,
      0x00, 0x00, 0x00, 0x00, 0x66, 0x86, 0xDF, 0xCF, 0x00, 0x01, 0x02, 0x03] := by decide +kernel

/-- The header of P1's file, with another magic, and its 36 bytes. -/
def headerP1 : FrameHeader := { frameP1.header 0xCFDF8666 with magic := 0x12345678 }

/-- S3, S5, P3: the strict verify of P1's file, of one short of a byte, and of one with a flipped bit. -/
theorem test_verify_strict_errors :
    (match verifyStrict (headerP1.toBytes ++ [0, 1, 2]) State.reset with
      | .next (_, .error e) => some e
      | _ => none) = some .sizeMismatch ∧
    (match verifyStrict (headerP1.toBytes ++ [0, 1, 0x12, 3]) State.reset with
      | .next (_, .error e) => some e
      | _ => none) = some .checksumMismatch ∧
    (match verifyStrict (headerP1.toBytes ++ [0, 1, 2, 3]) State.reset with
      | .next (_, .ok r) => r.checksumOk
      | _ => false) = true := by decide +kernel

/-- S4: 31 bytes are no header. -/
theorem test_short_file : decodeFile (List.replicate 31 0) = .error .corruptHeader := by decide

/-! ### Witnesses: the hypotheses of each obligation can be met, clause by clause -/

theorem witness_ClrRestoresResetState :
    (0x01000001#32).extractLsb' 24 8 = 0x01#8 ∧ 0x01000001#32 ≠ 0x01000000#32 ∧
    (0x01800000#32).extractLsb' 24 8 = 0x01#8 ∧ 0x01800000#32 ≠ 0x01000000#32 ∧
    decode 0x01000000#32 = .ok .clr ∧ Instr.rdst ≠ .clr ∧
    (regsAfter (exec .rdst (withRegs fault4))).map Regs.phase = some .fault ∧
    (regsAfter (exec .check (withRegs doneLoaded))).map Regs.phase = some .done ∧
    (regsAfter (exec .check (withRegs doneOther))).map Regs.phase = some .fault := by decide

/-- The four phases, each met by a state of the spec's programs. -/
theorem witness_phases : (withRegs Regs.reset).regs.phase = .idle ∧ (withRegs run0).regs.phase = .run ∧
    (withRegs done4).regs.phase = .done ∧ (withRegs fault4).regs.phase = .fault := by decide

theorem witness_SetdimLoadsDeclaredDimension :
    State.reset.regs.phase = .idle ∧ ((withRegs run0).regs.phase = .run ∨ (withRegs run0).regs.phase = .done) ∧
    ((withRegs done4).regs.phase = .run ∨ (withRegs done4).regs.phase = .done) ∧
    (withRegs fault4).regs.phase = .fault := by decide

/-- `NLD` at 0, at 3 and at 4. -/
theorem witness_LdckbLoadsNextStoredByte :
    (State.reset.regs.phase ≠ .fault ∧ State.reset.regs.nld.val < 4) ∧
    ((withRegs { run0 with nld := 3 }).regs.phase ≠ .fault ∧ (withRegs { run0 with nld := 3 }).regs.nld.val < 4) ∧
    ((withRegs doneLoaded).regs.phase ≠ .fault ∧ (withRegs doneLoaded).regs.nld.val = 4) ∧
    (withRegs fault4).regs.phase = .fault := by decide

theorem witness_StartAbsorbsZeroPrefix :
    State.reset.regs.phase = .idle ∧ ((withRegs run0).regs.phase = .run ∨ (withRegs run0).regs.phase = .done) ∧
    ((withRegs done4).regs.phase = .run ∨ (withRegs done4).regs.phase = .done) ∧
    (withRegs fault4).regs.phase = .fault := by decide

/-- The count one short of the product and equal to it, at the least and at the largest declared length. -/
theorem witness_DataAbsorbsOnePayloadByte :
    (run3.phase = .run ∧ run3.count.toNat ≠ run3.w.toNat * run3.h.toNat * run3.d.toNat * run3.b.toNat) ∧
    ((largest 0xFFFC0005FFFC0000).phase = .run ∧ (largest 0xFFFC0005FFFC0000).count.toNat ≠ 65535 * 65535 * 65535 * 65535) ∧
    ((largest 0xFFFC0005FFFC0001).phase = .run ∧ (largest 0xFFFC0005FFFC0001).count.toNat = 65535 * 65535 * 65535 * 65535) ∧
    (Regs.reset.started.phase = .run ∧ Regs.reset.started.count.toNat = Regs.reset.started.w.toNat *
      Regs.reset.started.h.toNat * Regs.reset.started.d.toNat * Regs.reset.started.b.toNat) ∧
    (Regs.reset.phase = .idle ∨ Regs.reset.phase = .done) ∧ (done4.phase = .idle ∨ done4.phase = .done) ∧
    fault4.phase = .fault := by decide

theorem witness_FinishProducesChecksumOfCompletePayload :
    (run4.phase = .run ∧ run4.count.toNat = run4.w.toNat * run4.h.toNat * run4.d.toNat * run4.b.toNat) ∧
    ((largest 0xFFFC0005FFFC0001).phase = .run ∧ (largest 0xFFFC0005FFFC0001).count.toNat = 65535 * 65535 * 65535 * 65535) ∧
    (Regs.reset.started.phase = .run ∧ Regs.reset.started.count.toNat = Regs.reset.started.w.toNat *
      Regs.reset.started.h.toNat * Regs.reset.started.d.toNat * Regs.reset.started.b.toNat) ∧
    (run3.phase = .run ∧ run3.count.toNat ≠ run3.w.toNat * run3.h.toNat * run3.d.toNat * run3.b.toNat) ∧
    (Regs.reset.phase = .idle ∨ Regs.reset.phase = .done) ∧ (done4.phase = .idle ∨ done4.phase = .done) ∧
    fault4.phase = .fault := by decide

theorem witness_RdckRespondsResultInDone :
    done4.phase = .done ∧ (Regs.reset.phase = .idle ∨ Regs.reset.phase = .run) ∧
    (run0.phase = .idle ∨ run0.phase = .run) ∧ fault4.phase = .fault := by decide

/-- Any `sel` may be taken with each. -/
theorem witness_RdckbRespondsResultByteInDone :
    done4.phase = .done ∧ (Regs.reset.phase = .idle ∨ Regs.reset.phase = .run) ∧
    (run0.phase = .idle ∨ run0.phase = .run) ∧ fault4.phase = .fault := by decide

/-- A match, a mismatch, `NLD` at 0 and at 3, and the other phases. -/
theorem witness_CheckComparesResultWithStored :
    (doneLoaded.phase = .done ∧ doneLoaded.nld.val = 4 ∧ doneLoaded.result = doneLoaded.stored) ∧
    (doneOther.phase = .done ∧ doneOther.nld.val = 4 ∧ doneOther.result ≠ doneOther.stored) ∧
    (done4.phase = .done ∧ done4.nld.val < 4) ∧
    (({ doneLoaded with nld := 3 } : Regs).phase = .done ∧ ({ doneLoaded with nld := 3 } : Regs).nld.val < 4) ∧
    (Regs.reset.phase = .idle ∨ Regs.reset.phase = .run) ∧ (run0.phase = .idle ∨ run0.phase = .run) ∧
    fault4.phase = .fault := by decide

theorem witness_EncodeOfDecodeIsTheWord : decode 0x0203FFFF#32 = .ok (.setdim .b 65535) ∧
    decode 0x0A000000#32 = .ok .rdst := by decide

theorem witness_LegalWordsAreTheTenRows :
    ((0x02000000, 0xFFFC0000) ∈ opcodeMap ∧ 0x0203FFFF#32 &&& 0xFFFC0000#32 = 0x02000000#32) ∧
    decode 0x0203FFFF#32 = .ok (.setdim .b 65535) := by decide

theorem witness_StepRunsTheDecodedCommand :
    (presented run0 0x04000001).input = .command 0x04000001 :: [] ∧ decode 0x04000001#32 = .ok (.data 1) := by decide

theorem witness_PlacedWordIsFetchedNext : 0x0203FFFF < 2 ^ 32 ∧
    decode (BitVec.ofNat 32 0x0203FFFF) = .ok (.setdim .b 65535) := by decide

/-- In IDLE, RUN and DONE. -/
theorem witness_IllegalWordRaisesIllegalCmd :
    ((presented Regs.reset 0).input = .command 0 :: [] ∧ (presented Regs.reset 0).regs.phase ≠ .fault) ∧
    ((presented run0 0x04000100).input = .command 0x04000100 :: [] ∧ (presented run0 0x04000100).regs.phase ≠ .fault) ∧
    ((presented done4 0x0B000000).input = .command 0x0B000000 :: [] ∧
      (presented done4 0x0B000000).regs.phase ≠ .fault) := by decide

/-- An ignored legal word, an ignored illegal word, CLR and RDST. -/
theorem witness_FaultPhasePerformsOnlyClrAndRdst :
    ((presented fault4 0x06000000).input = .command 0x06000000 :: [] ∧ (presented fault4 0x06000000).regs.phase = .fault ∧
      decode 0x06000000#32 ≠ .ok .clr ∧ decode 0x06000000#32 ≠ .ok .rdst) ∧
    ((presented fault4 0).input = .command 0 :: [] ∧ decode 0#32 ≠ .ok .clr ∧ decode 0#32 ≠ .ok .rdst) ∧
    decode 0x01000000#32 = .ok .clr ∧ decode 0x0A000000#32 = .ok .rdst := by decide

/-- Each clause: RDCK and RDCKB in DONE, a CHECK that stays in DONE, RDST, a word in FAULT, a word that faults, a plain word. -/
theorem witness_EveryCommandAnswersOneResponse :
    ((presented done4 0x06000000).input = .command 0x06000000 :: [] ∧ decode 0x06000000#32 = .ok .rdck ∧
      (presented done4 0x06000000).regs.phase = .done) ∧
    decode 0x07030000#32 = .ok (.rdckb 3) ∧
    (decode 0x09000000#32 = .ok .check ∧
      (regsAfter (step (presented doneLoaded 0x09000000))).map Regs.phase = some .done) ∧
    decode 0x0A000000#32 = .ok .rdst ∧
    (decode 0x06000000#32 ≠ .ok .rdst ∧ (presented fault4 0x06000000).regs.phase = .fault ∧
      (regsAfter (step (presented Regs.reset 0x06000000))).map Regs.phase = some .fault) ∧
    decode 0x03000000#32 = .ok .start := by decide

theorem witness_FaultEntryWritesOnlyPhaseAndErrcode :
    (presented Regs.reset 0x06000000).input = .command 0x06000000 :: [] ∧
    (presented Regs.reset 0x06000000).regs.phase ≠ .fault ∧
    (regsAfter (step (presented Regs.reset 0x06000000))).map Regs.phase = some .fault := by decide

/-- A word for each code of `firstFault`, and one that raises none. -/
theorem witness_FirstFaultInPriorityOrderIsRaised :
    (presented run0 0x04000100).input = .command 0x04000100 :: [] ∧ (presented run0 0x04000100).regs.phase ≠ .fault ∧
    firstFault 0x07000001 Regs.reset = some .illegalCmd ∧ firstFault 0x07000000 Regs.reset = some .sequence ∧
    firstFault 0x08000000 doneLoaded = some .sequence ∧ firstFault 0x04000000 run4 = some .sizeMismatch ∧
    firstFault 0x05000000 run3 = some .sizeMismatch ∧ firstFault 0x09000000 done4 = some .sequence ∧
    firstFault 0x09000000 doneOther = some .checksumMismatch ∧ firstFault 0x09000000 doneLoaded = none := by decide

theorem witness_SequenceRaisedExactlyAsTabled : State.reset.regs.phase ≠ .fault ∧ run0.phase ≠ .fault ∧
    doneLoaded.phase ≠ .fault ∧ doneLoaded.nld.val = 4 := by decide

theorem witness_SizeMismatchRaisedExactlyOnWrongCount : (withRegs run4).regs.phase ≠ .fault ∧ run4.phase = .run ∧
    run4.count.toNat = run4.w.toNat * run4.h.toNat * run4.d.toNat * run4.b.toNat ∧
    run3.count.toNat ≠ run3.w.toNat * run3.h.toNat * run3.d.toNat * run3.b.toNat := by decide

theorem witness_ChecksumMismatchRaisedOnlyByCheck : (withRegs doneOther).regs.phase ≠ .fault ∧ doneOther.phase = .done ∧
    doneOther.nld.val = 4 ∧ doneOther.result ≠ doneOther.stored := by decide

/-- A step that stays, each change of phase, and hardware reset. -/
theorem witness_PhaseChangesOnlyAsAllowed :
    State.reset.regs.phase = .idle ∧ ((withRegs run4).regs.phase = .run ∧ run4.count.toNat = run4.expect) ∧
    ErrCode.sequence ≠ .none ∧
    (presented Regs.reset 0x03000000).input = .command 0x03000000 :: [] ∧
    (regsAfter (step (presented Regs.reset 0x0A000000))).map Regs.phase = some .idle ∧
    (regsAfter (step (presented Regs.reset 0x03000000))).map Regs.phase = some .run ∧
    (regsAfter (step (presented run4 0x05000000))).map Regs.phase = some .done ∧
    (regsAfter (step (presented run3 0x05000000))).map Regs.phase = some .fault ∧
    (regsAfter (step (presented fault4 0x01000000))).map Regs.phase = some .idle ∧
    (regsAfter (step { withRegs run4 with input := [.reset] })).map Regs.phase = some .idle := by decide +kernel

theorem witness_FirstFaultStaysUntilClr : (withRegs fault4).regs.phase = .fault ∧
    ∀ cw ∈ [0x03000000#32, 0x01000001#32, 0x0A000000#32], decode cw ≠ .ok .clr := by
  refine ⟨by decide, fun cw h => ?_⟩
  simp only [List.mem_cons, List.not_mem_nil, or_false] at h
  rcases h with rfl | rfl | rfl <;> decide

theorem witness_HardwareResetEqualsClr : ({ withRegs fault4 with input := [.reset] } : State).input = .reset :: [] := by
  decide

theorem witness_EmptyStreamHoldsState : (withRegs run3).input = [] := by decide

/-- The reset state tracks no payload. -/
theorem reset_tracks : Regs.reset.Tracks [] := by
  constructor <;> decide

/-- RUN of P1 after three bytes. -/
theorem run3_tracks : run3.Tracks [0, 1, 2] := by
  constructor <;> decide +kernel

/-- DONE of P2 after a match. -/
theorem matched_tracks : ({ doneLoaded with matched := true } : Regs).Tracks [0, 1, 2, 3] := by
  constructor <;> decide +kernel

/-- FAULT of P3. -/
theorem fault4_tracks : fault4.Tracks [0, 1, 0x12, 3] := by
  constructor <;> decide +kernel

/-- In RUN, in DONE with a match, in FAULT: the invariant holds and the step answers. -/
theorem witness_StepKeepsRegisterInvariants :
    ((presented run3 0x04000003).regs.Tracks [0, 1, 2] ∧ regsAfter (step (presented run3 0x04000003)) = some run4) ∧
    ((presented fault4 0x01000000).regs.Tracks [0, 1, 0x12, 3] ∧
      regsAfter (step (presented fault4 0x01000000)) = some Regs.reset) ∧
    ((withRegs { doneLoaded with matched := true }).regs.Tracks [0, 1, 2, 3] ∧
      after (step (withRegs { doneLoaded with matched := true })) =
        some (withRegs { doneLoaded with matched := true })) :=
  ⟨⟨run3_tracks, by decide +kernel⟩, ⟨fault4_tracks, by decide⟩, ⟨matched_tracks, by decide⟩⟩

/-- One byte short of the declared length. -/
theorem witness_CountNeverWraps : (withRegs run3).regs.Tracks [0, 1, 2] ∧ run3.phase = .run ∧
    run3.count.toNat ≠ run3.expect := ⟨run3_tracks, by decide, by decide⟩

theorem witness_CrcIsUnreadOutsideRun : State.reset.regs.phase ≠ .run ∧ done4.phase ≠ .run ∧ fault4.phase ≠ .run := by
  decide

/-- A command for each clause; CHECK with a match and without. -/
theorem witness_MatchIsReadOnlyByRdst : (Instr.check ≠ .rdst) ∧ (Instr.start ≠ .check ∧ Instr.start ≠ .clr ∧
      (after (exec .start State.reset)).isSome = true) ∧
    (after (exec .clr (withRegs { doneLoaded with matched := true }))).isSome = true ∧
    (regsAfter (exec .check (withRegs doneLoaded))).map Regs.matched = some true ∧
    (regsAfter (exec .check (withRegs doneOther))).map Regs.matched = some false := by decide +kernel

theorem witness_CrcIsAffineInTheMessage : ([0x12, 0x34, 0x56, 0x78] : List Byte).length =
    ([0xDE, 0xAD, 0xBE, 0xEF] : List Byte).length := by decide

theorem witness_BitstepIsABijection : Config.params.polyr.getLsbD 31 = true ∧
    absorb Config.params 0xFFFFFFFF 0 = absorb Config.params 0xFFFFFFFF 0 := by decide

/-- The body of P9, with stored bytes and a status read between the payload bytes. -/
theorem witness_FrameProtocolComputesChecksum :
    (withRegs { Regs.reset with w := 2, h := 1, d := 1, b := 1 }).regs.phase = .idle ∧
    (∀ i ∈ [Instr.data 1, .ldckb 0xCE, .data 2, .rdst, .ldckb 0, .ldckb 0, .ldckb 0], isFrameBody i = true) ∧
    (payloadBytes [Instr.data 1, .ldckb 0xCE, .data 2, .rdst, .ldckb 0, .ldckb 0, .ldckb 0]).length =
      ({ Regs.reset with w := 2, h := 1, d := 1, b := 1 } : Regs).expect ∧
    0 + (storedBytes [Instr.data 1, .ldckb 0xCE, .data 2, .rdst, .ldckb 0, .ldckb 0, .ldckb 0]).length ≤ 4 := by decide

theorem witness_SetdimsLoadsAllDimensions : State.reset.regs.phase = .idle := by decide

/-- The last byte, and no byte at all. -/
theorem witness_PayloadFeedsTheWorkingRegister :
    (run3.phase = .run ∧ run3.count.toNat + ([3] : List Byte).length ≤ run3.expect) ∧
    (Regs.reset.started.phase = .run ∧ Regs.reset.started.count.toNat + ([] : List Byte).length ≤
      Regs.reset.started.expect) := by decide

theorem witness_LdckLoadsTheWholeChecksum : (State.reset.regs.phase ≠ .fault ∧ State.reset.regs.nld = 0) ∧
    (run0.phase ≠ .fault ∧ run0.nld = 0) ∧ (done4.phase ≠ .fault ∧ done4.nld = 0) := by decide

/-- The declared length, one byte less, one byte more, and a file of 31 bytes. -/
theorem witness_DecodeRecoversHeaderAndPayload :
    ([0, 1, 2, 3] : List Byte).length = headerP1.width.toNat * headerP1.height.toNat * headerP1.depth.toNat *
      headerP1.bytesPerVoxel.toNat ∧
    ([0, 1, 2] : List Byte).length ≠ headerP1.width.toNat * headerP1.height.toNat * headerP1.depth.toNat *
      headerP1.bytesPerVoxel.toNat ∧
    ([0, 1, 2, 3, 4] : List Byte).length ≠ headerP1.width.toNat * headerP1.height.toNat * headerP1.depth.toNat *
      headerP1.bytesPerVoxel.toNat ∧
    (List.replicate 31 0#8).length < 32 ∧ ([] : List Byte).length < 32 := by decide

theorem witness_EncodeCommandsSucceedExactlyOnMatchingLength :
    frameP1.payload.length = frameP1.width.toNat * frameP1.height.toNat * frameP1.depth.toNat *
      frameP1.bytesPerVoxel.toNat ∧
    ({ frameP1 with payload := [0, 1, 2] } : EncodeArgs).payload.length ≠ frameP1.width.toNat * frameP1.height.toNat *
      frameP1.depth.toNat * frameP1.bytesPerVoxel.toNat := by decide

theorem witness_EncodeFlowWritesTheChecksum :
    frameP1.payload.length = frameP1.width.toNat * frameP1.height.toNat * frameP1.depth.toNat *
      frameP1.bytesPerVoxel.toNat ∧
    ({ frameP1 with payload := [0, 1, 2, 3, 4] } : EncodeArgs).payload.length ≠ frameP1.width.toNat *
      frameP1.height.toNat * frameP1.depth.toNat * frameP1.bytesPerVoxel.toNat := by decide

/-- Each branch of the verdict. -/
theorem witness_StrictVerifyDecidesEveryFile :
    ([0, 1, 2] : List Byte).length ≠ headerP1.width.toNat * headerP1.height.toNat * headerP1.depth.toNat *
      headerP1.bytesPerVoxel.toNat ∧
    crc32 Config.params ([0, 0, 0, 0] ++ [0, 1, 0x12, 3]) ≠ headerP1.checksum ∧
    crc32 Config.params ([0, 0, 0, 0] ++ [0, 1, 2, 3]) = headerP1.checksum ∧
    (List.replicate 31 0#8).length < 32 ∧ ([] : List Byte).length < 32 := by decide +kernel

/-- P1's file, and P3's altered payload. -/
theorem witness_StrictVerifyAcceptsEncodedFiles :
    (frameP1.payload.length = frameP1.width.toNat * frameP1.height.toNat * frameP1.depth.toNat *
      frameP1.bytesPerVoxel.toNat ∧ ∃ t file, cksumEncode frameP1 State.reset = .next (t, .ok file)) ∧
    ([0, 1, 0x12, 3] : List Byte).length = frameP1.payload.length ∧
    frameChecksum Config.params [0, 1, 0x12, 3] ≠ frameChecksum Config.params frameP1.payload :=
  ⟨⟨by decide, _, _, rfl⟩, by decide, by decide +kernel⟩

theorem witness_InstancesDoNotInfluenceEachOther :
    ([State.reset, withRegs run3] : System)[1]? = some (withRegs run3) ∧ ([1, 0, 1] : List Nat).count 1 = 2 := by decide

end Sys2Proof.Tests
end

section
/-! The two ways to build the block (00_scope.md R2) absorb a byte alike, so they give one checksum (40_crc_core.md R74). -/

namespace Sys2Proof.Machine

open Sys2Proof

/-- R75's linearity: a step distributes over xor. -/
theorem bitstep_xor (p : CrcParams) (a b : Word) : bitstep p (a ^^^ b) = bitstep p a ^^^ bitstep p b := by
  have hpoly : ∀ u v : Bool,
      (if u ^^ v then p.polyr else 0) = (if u then p.polyr else 0) ^^^ (if v then p.polyr else 0) := by
    intro u v
    cases u <;> cases v <;> simp
  rw [bitstep, bitstep, bitstep, BitVec.ushiftRight_xor_distrib, BitVec.getLsbD_xor, hpoly]
  ac_rfl

theorem bitsteps_xor (p : CrcParams) (n : Nat) (a b : Word) :
    bitsteps p n (a ^^^ b) = bitsteps p n a ^^^ bitsteps p n b := by
  induction n generalizing a b with
  | zero => rfl
  | succ n ih => rw [bitsteps_succ, bitstep_xor, ih, ← bitsteps_succ, ← bitsteps_succ]

/-- Steps that meet no set bit never use the polynomial: they only shift. -/
theorem bitsteps_of_low_bits_clear (p : CrcParams) (n : Nat) (c : Word) (h : ∀ k < n, c.getLsbD k = false) :
    bitsteps p n c = c >>> n := by
  induction n generalizing c with
  | zero => simp
  | succ n ih =>
    have hshift : ∀ k < n, (c >>> 1).getLsbD k = false := by
      intro k hk
      rw [BitVec.getLsbD_ushiftRight]
      exact h _ (by omega)
    rw [bitsteps_succ, bitstep_of_even (h 0 n.succ_pos), ih _ hshift, ← BitVec.shiftRight_add, Nat.add_comm]

/-- R73's split: a word is its low byte and the rest. -/
theorem low_byte_xor_rest (x : Word) : (x.setWidth 8).setWidth 32 ^^^ (x >>> 8) <<< 8 = x := by
  ext i hi
  by_cases h : i < 8
  · simp [h, hi]
  · have : 8 + (i - 8) = i := by omega
    simp [h, hi, this]

/-- Eight steps act on the low byte by R72's table entry, and on the rest by a shift. -/
theorem bitsteps_eight_eq (p : CrcParams) (x : Word) : bitsteps p 8 x = tableEntry p (x.setWidth 8) ^^^ (x >>> 8) := by
  have hentry : bitsteps p 8 ((x.setWidth 8).setWidth 32) = tableEntry p (x.setWidth 8) := by
    simp [tableEntry, absorbSerial]
  have hrest : bitsteps p 8 ((x >>> 8) <<< 8) = x >>> 8 := by
    rw [bitsteps_of_low_bits_clear p 8 _ (by intro k hk; simp [hk])]
    ext i hi
    simpa using BitVec.lt_of_getLsbD
  calc bitsteps p 8 x
      = bitsteps p 8 ((x.setWidth 8).setWidth 32 ^^^ (x >>> 8) <<< 8) := by rw [low_byte_xor_rest]
    _ = tableEntry p (x.setWidth 8) ^^^ (x >>> 8) := by rw [bitsteps_xor, hentry, hrest]

/-- The incoming byte reaches the low byte only. -/
theorem xor_byte_ushiftRight_eight (c : Word) (b : Byte) : (c ^^^ b.setWidth 32) >>> 8 = c >>> 8 := by
  ext i hi
  simp

theorem absorbTable_eq_absorbSerial (p : CrcParams) (c : Word) (b : Byte) : absorbTable p c b = absorbSerial p c b := by
  rw [absorbTable_eq, absorbSerial, bitsteps_eight_eq, xor_byte_ushiftRight_eight]

/-- However the block is built, it absorbs a byte by eight polynomial steps (R74). -/
theorem absorb_eq_absorbSerial (p : CrcParams) (c : Word) (b : Byte) : absorb p c b = absorbSerial p c b := by
  cases h : p.impl with
  | bitSerial => exact absorb_bitSerial h c b
  | tableDriven => rw [absorb_tableDriven h, absorbTable_eq_absorbSerial]

theorem absorbSerial_with_impl (p : CrcParams) (impl : Impl) (c : Word) (b : Byte) :
    absorbSerial { p with impl := impl } c b = absorbSerial p c b := rfl

theorem absorbAll_with_impl (p : CrcParams) (impl : Impl) (c : Word) (m : List Byte) :
    absorbAll { p with impl := impl } c m = absorbAll p c m := by
  induction m generalizing c with
  | nil => rfl
  | cons b m ih =>
    rw [absorbAll_cons, absorbAll_cons, ih, absorb_eq_absorbSerial, absorb_eq_absorbSerial, absorbSerial_with_impl]

theorem crc32_with_impl (p : CrcParams) (impl : Impl) (m : List Byte) : crc32 { p with impl := impl } m = crc32 p m := by
  rw [crc32, crc32, absorbAll_with_impl]

/-- Settles O41: either build gives the checksum of `p` itself. -/
theorem checksumDoesNotDependOnImpl : Obligations.ChecksumDoesNotDependOnImpl := by
  intro p impl impl' m
  rw [crc32_with_impl p impl, crc32_with_impl p impl']

end Sys2Proof.Machine
end

section
/-! `CommandEffect` describes `exec` exactly: by `exec_effect` every answer is one of its effects, and by `exec_of_effect` every
effect is the answer. So a property of every command is a property of the fifteen effects. -/

namespace Sys2Proof.Machine

open Sys2Proof

/-- With nothing presented a step answers the same state. -/
theorem eq_of_step_idle {s t : State} (hin : s.input = []) (hs : step s = .next t) : s = t := by
  have hold : step s = .next s := by rw [step, hin]; rfl
  exact Host.Outcome.next.inj (hold.symm.trans hs)

/-- What one event can do to the registers. -/
theorem step_event_cases {s t : State} {e : Event} {rest : List Event} (hin : s.input = e :: rest)
    (hs : step s = .next t) :
    (e = .reset ∧ t.regs = Regs.reset) ∨
    (∃ cw i rsp, e = .command cw ∧ decode cw = .ok i ∧ CommandEffect i s.regs t.regs rsp) ∨
    (∃ cw ill, e = .command cw ∧ decode cw = .error ill ∧ s.regs.phase = .fault ∧ t.regs = s.regs) ∨
    (∃ cw ill, e = .command cw ∧ decode cw = .error ill ∧ s.regs.phase ≠ .fault ∧
      t.regs = s.regs.faulted .illegalCmd) := by
  rcases step_cases s with ⟨hnil, -⟩ | ⟨rest', hin', hs'⟩ | ⟨cw, rest', i, r, rsp, hin', hd, he, hs'⟩ |
    ⟨cw, rest', ill, hin', hd, hp, hs'⟩ | ⟨cw, rest', ill, hin', hd, hp, hs'⟩
  · exact absurd (hin.symm.trans hnil) (by simp)
  all_goals
    obtain ⟨rfl, -⟩ := List.cons.inj (hin'.symm.trans hin)
    obtain rfl := Host.Outcome.next.inj (hs'.symm.trans hs)
  · exact .inl ⟨rfl, rfl⟩
  · exact .inr (.inl ⟨cw, i, rsp, rfl, hd, he⟩)
  · exact .inr (.inr (.inl ⟨cw, ill, rfl, hd, hp, rfl⟩))
  · exact .inr (.inr (.inr ⟨cw, ill, rfl, hd, hp, rfl⟩))

/-- What a command answers with is one of its effects. -/
theorem effect_of_exec {i : Instr} {s t : State} (h : exec i s = .next t) :
    ∃ r rsp, t = s.answer r rsp ∧ CommandEffect i s.regs r rsp := by
  obtain ⟨r, rsp, hx, he⟩ := exec_effect i s
  exact ⟨r, rsp, Host.Outcome.next.inj (h.symm.trans hx), he⟩

theorem phase_mem_of_not_fault {p : Phase} (h : p ≠ .fault) : p ∈ [Phase.idle, .run, .done] := by
  cases p <;> simp_all

theorem exec_of_in_fault {i : Instr} {s : State} (hp : s.regs.phase = .fault) (hc : i ≠ .clr) (hr : i ≠ .rdst) :
    exec i s = .next (s.answer s.regs 0) := by
  cases i with
  | clr => exact absurd rfl hc
  | rdst => exact absurd rfl hr
  | setdim | start | data | finish | rdck | rdckb | ldckb | check => exact guarded_in_fault hp

theorem exec_of_misplaced {i : Instr} {s : State} (hp : s.regs.phase ≠ .fault) (hm : Misplaced i s.regs) :
    exec i s = .next (s.answer (s.regs.faulted .sequence) 0) := by
  cases i with
  | clr | rdst => exact hm.elim
  | setdim | start | data | finish | rdck | rdckb => exact guarded_misplaced hp (by simpa [Misplaced] using hm)
  | ldckb x =>
    have hn : s.regs.nld = 4 := hm
    exact (guarded_legal hp (phase_mem_of_not_fault hp)).trans (by simp [hn])
  | check =>
    by_cases hd : s.regs.phase = .done
    · have hn : s.regs.nld ≠ 4 := hm.resolve_left (not_not_intro hd)
      exact (guarded_legal hp (by simp [hd])).trans (by simp [hn])
    · exact guarded_misplaced hp (by simpa using hd)

/-- A command has the effect that its conditions select. -/
theorem exec_of_effect {i : Instr} {s : State} {r : Regs} {rsp : Word} (h : CommandEffect i s.regs r rsp) :
    exec i s = .next (s.answer r rsp) := by
  have legal {p : Phase} (hp : s.regs.phase = p) (hf : p ≠ .fault) (perform : Host.Outcome State Fault Refusal) :
      guarded [p] perform s = perform := guarded_legal (hp ▸ hf) (by simp [hp])
  cases h with
  | ignored hp hc hr => exact exec_of_in_fault hp hc hr
  | misplaced hp hm => exact exec_of_misplaced hp hm
  | cleared hi | readStatus hi => subst hi; rfl
  | loadedDim _ _ hi hp | started hi hp | readResult hi hp | readByte _ hi hp => subst hi; exact legal hp (by simp) _
  | loadedByte x hi hp hn =>
    subst hi
    exact (guarded_legal hp (phase_mem_of_not_fault hp)).trans (by simp [hn])
  | absorbed _ hi hp hc | surplus _ hi hp hc | finished hi hp hc | short hi hp hc =>
    subst hi
    exact (legal hp (by simp) _).trans (by simp [hc])
  | confirmed hi hp hn he | different hi hp hn he =>
    subst hi
    exact (legal hp (by simp) _).trans (by simp [hn, he])

end Sys2Proof.Machine
end

section
/-! The invariants of R28 hold at reset and are kept by every effect of a command, with the payload given so far. -/

namespace Sys2Proof.Machine

open Sys2Proof

/-- Settles O34: in IDLE the clauses about the other phases and about a match are void, and the registers are zero. -/
theorem resetSatisfiesRegisterInvariants : Obligations.ResetSatisfiesRegisterInvariants where
  fault_iff := by decide
  idle _ := by decide
  run h := by cases h
  done h := by cases h
  fault h := by cases h
  matched h := by cases h
  unloaded := by decide

/-- The largest declared length: the product is below 2^64 (40_crc_core.md R79). -/
theorem Regs.expect_le (r : Regs) : r.expect ≤ 0xFFFC0005FFFC0001 := by
  have bound (x : Half) : x.toNat ≤ 0xFFFF := Nat.le_of_lt_succ x.isLt
  exact Nat.mul_le_mul (Nat.mul_le_mul (Nat.mul_le_mul (bound r.w) (bound r.h)) (bound r.d)) (bound r.b)

/-- Below the declared length the 64-bit sum of R86 is exact (log entry 7). -/
theorem Regs.count_succ_toNat {r : Regs} (h : r.count.toNat < r.expect) : (r.count + 1).toNat = r.count.toNat + 1 := by
  have := r.expect_le
  calc (r.count + 1).toNat = (r.count.toNat + 1) % 2 ^ 64 := BitVec.toNat_add _ _
    _ = r.count.toNat + 1 := Nat.mod_eq_of_lt (by omega)

/-- Loading the next byte of `STORED` keeps the bytes above it zero (R21). -/
theorem setByte_ushiftRight_eq_zero {v : Word} {i : Nat} (x : Byte) (h : v >>> (8 * i) = 0) :
    setByte v i x >>> (8 * (i + 1)) = 0 := by
  ext k hk
  rw [← BitVec.getLsbD_eq_getElem, BitVec.getLsbD_ushiftRight]
  by_cases hlt : 8 * (i + 1) + k < 32
  · have hv : (v >>> (8 * i)).getLsbD (8 + k) = false := by rw [h]; exact BitVec.getLsbD_zero
    rw [BitVec.getLsbD_ushiftRight, ← Nat.add_assoc, ← Nat.mul_succ] at hv
    rw [setByte_getLsbD v i x hlt, if_neg (by omega), hv]
    simp
  · rw [BitVec.getLsbD_of_ge _ _ (by omega)]
    simp

namespace Regs.Tracks

variable {r : Regs} {p : List Byte}

theorem faulted (h : r.Tracks p) (hp : r.phase ≠ .fault) {code : ErrCode} (hc : code ≠ .none) :
    (r.faulted code).Tracks p where
  fault_iff := by simp [hc]
  idle h' := by cases h'
  run h' := by cases h'
  done h' := by cases h'
  fault _ := by
    cases hph : r.phase with
    | idle =>
      obtain ⟨-, -, hres, -⟩ := h.idle hph
      exact .inl hres
    | run =>
      obtain ⟨-, -, hres, -⟩ := h.run hph
      exact .inl hres
    | done =>
      obtain ⟨-, hlen, hres⟩ := h.done hph
      exact .inr ⟨hlen, hres⟩
    | fault => exact absurd hph hp
  matched := h.matched
  unloaded := h.unloaded

theorem withDim (h : r.Tracks p) (hp : r.phase = .idle) (sel : DimReg) (v : Half) : (r.withDim sel v).Tracks p where
  fault_iff := by simpa using h.fault_iff
  idle := by simpa using h.idle
  run := by simp [hp]
  done := by simp [hp]
  fault := by simp [hp]
  matched := by
    obtain ⟨-, -, -, hm⟩ := h.idle hp
    simp [hm]
  unloaded := by simpa using h.unloaded

theorem loadByte (h : r.Tracks p) (hn : r.nld ≠ 4) (x : Byte) : (r.loadByte x).Tracks p where
  fault_iff := h.fault_iff
  idle := h.idle
  run := h.run
  done := h.done
  fault := h.fault
  matched hm := by
    obtain ⟨hfull, -⟩ := h.matched hm
    exact absurd hfull hn
  unloaded := by
    have hval : (r.nld + 1).val = r.nld.val + 1 := (Fin.val_add_one r.nld).trans (if_neg hn)
    rw [loadByte_stored, loadByte_nld, hval]
    exact setByte_ushiftRight_eq_zero x h.unloaded

theorem started (h : r.Tracks p) (hp : r.phase = .idle) : r.started.Tracks [] := by
  obtain ⟨-, -, hres, hm⟩ := h.idle hp
  exact {
    fault_iff := by simpa [hp] using h.fault_iff
    idle := by simp
    run := fun _ => ⟨rfl, Nat.zero_le _, hres, hm, by simp⟩
    done := by simp
    fault := by simp
    matched := by simp [hm]
    unloaded := h.unloaded }

theorem absorbed (h : r.Tracks p) (hp : r.phase = .run) (hc : r.complete = false) (b : Byte) :
    (r.absorbed b).Tracks (p ++ [b]) := by
  obtain ⟨hcount, hle, hres, hm, hcrc⟩ := h.run hp
  have hroom : r.count.toNat < r.expect := Nat.lt_of_le_of_ne (hcount ▸ hle) (r.not_complete_iff.mp hc)
  exact {
    fault_iff := h.fault_iff
    idle := by simp [hp]
    run := fun _ =>
      ⟨by rw [absorbed_count, count_succ_toNat hroom, hcount, List.length_append]; rfl,
        by rw [List.length_append]; exact hcount ▸ hroom, hres, hm,
        by rw [absorbed_crc, hcrc, ← List.append_assoc, absorbAll_snoc]⟩
    done := by simp [hp]
    fault := by simp [hp]
    matched := by simp [hm]
    unloaded := h.unloaded }

theorem finished (h : r.Tracks p) (hp : r.phase = .run) (hc : r.complete = true) : r.finished.Tracks p := by
  obtain ⟨hcount, -, -, hm, hcrc⟩ := h.run hp
  exact {
    fault_iff := by simpa [hp] using h.fault_iff
    idle := by simp
    run := by simp
    done := fun _ => ⟨hcount, hcount.symm.trans (r.complete_iff.mp hc), by rw [finished_result, hcrc]; rfl⟩
    fault := by simp
    matched := by simp [hm]
    unloaded := h.unloaded }

theorem confirmed (h : r.Tracks p) (hp : r.phase = .done) (hn : r.nld = 4) (he : r.result = r.stored) :
    r.confirmed.Tracks p where
  fault_iff := h.fault_iff
  idle := by simp [hp]
  run := by simp [hp]
  done := h.done
  fault := h.fault
  matched _ := by
    obtain ⟨-, hlen, hres⟩ := h.done hp
    exact ⟨hn, he, hlen, hres⟩
  unloaded := h.unloaded

end Regs.Tracks

/-! ### The payload given since START, after one event -/

theorem payloadAfter_clr {cw : Word} (hd : decode cw = .ok .clr) (r : Regs) (p : List Byte) :
    payloadAfter (.command cw) r p = [] := by
  simp [payloadAfter, hd]

theorem payloadAfter_start {cw : Word} (hd : decode cw = .ok .start) {r : Regs} (hp : r.phase = .idle) (p : List Byte) :
    payloadAfter (.command cw) r p = [] := by
  simp [payloadAfter, hd, hp]

theorem payloadAfter_data {cw : Word} {b : Byte} (hd : decode cw = .ok (.data b)) {r : Regs} (hp : r.phase = .run)
    (hc : r.complete = false) (p : List Byte) : payloadAfter (.command cw) r p = p ++ [b] := by
  simp [payloadAfter, hd, hp, hc]

theorem payloadAfter_illegal {cw : Word} {e : Illegal} (hd : decode cw = .error e) (r : Regs) (p : List Byte) :
    payloadAfter (.command cw) r p = p := by
  simp [payloadAfter, hd]

/-- Only CLR, START in IDLE and a DATA that is absorbed change the payload. -/
theorem payloadAfter_kept {cw : Word} {i : Instr} (hd : decode cw = .ok i) {r : Regs} (hclr : i ≠ .clr)
    (hstart : i = .start → r.phase ≠ .idle) (hdata : ∀ b, i = .data b → r.phase = .run → r.complete = true)
    (p : List Byte) : payloadAfter (.command cw) r p = p := by
  cases i with
  | clr => exact absurd rfl hclr
  | start => simp [payloadAfter, hd, hstart rfl]
  | data b =>
    have hc : ¬(r.phase = .run ∧ r.complete = false) := fun ⟨hp, hc⟩ => by simp [hdata b rfl hp] at hc
    simp only [payloadAfter, hd, if_neg hc]
  | setdim | finish | rdck | rdckb | ldckb | check | rdst => simp [payloadAfter, hd]

theorem payloadAfter_misplaced {cw : Word} {i : Instr} (hd : decode cw = .ok i) {r : Regs} (hm : Misplaced i r)
    (p : List Byte) : payloadAfter (.command cw) r p = p := by
  refine payloadAfter_kept hd ?_ ?_ ?_ p
  · rintro rfl
    exact hm
  · rintro rfl
    exact hm
  · rintro b rfl hp
    exact absurd hp hm

/-- Every command keeps the invariants of R28. -/
theorem CommandEffect.tracks {cw : Word} {i : Instr} {r r' : Regs} {rsp : Word} {p : List Byte}
    (he : CommandEffect i r r' rsp) (hd : decode cw = .ok i) (h : r.Tracks p) :
    r'.Tracks (payloadAfter (.command cw) r p) := by
  cases he with
  | cleared hi =>
    rw [payloadAfter_clr (hi ▸ hd)]
    exact resetSatisfiesRegisterInvariants
  | ignored hp hc hr =>
    rw [payloadAfter_kept hd hc (by simp [hp]) (by simp [hp])]
    exact h
  | misplaced hp hm =>
    rw [payloadAfter_misplaced hd hm]
    exact h.faulted hp (by simp)
  | loadedDim sel v hi hp =>
    rw [payloadAfter_kept hd (by simp [hi]) (by simp [hi]) (by simp [hi])]
    exact h.withDim hp sel v
  | loadedByte x hi hp hn =>
    rw [payloadAfter_kept hd (by simp [hi]) (by simp [hi]) (by simp [hi])]
    exact h.loadByte hn x
  | started hi hp =>
    rw [payloadAfter_start (hi ▸ hd) hp]
    exact h.started hp
  | absorbed x hi hp hc =>
    rw [payloadAfter_data (hi ▸ hd) hp hc]
    exact h.absorbed hp hc x
  | surplus x hi hp hc =>
    rw [payloadAfter_kept hd (by simp [hi]) (by simp [hi]) (fun _ _ _ => hc)]
    exact h.faulted (by simp [hp]) (by simp)
  | finished hi hp hc =>
    rw [payloadAfter_kept hd (by simp [hi]) (by simp [hi]) (by simp [hi])]
    exact h.finished hp hc
  | short hi hp hc =>
    rw [payloadAfter_kept hd (by simp [hi]) (by simp [hi]) (by simp [hi])]
    exact h.faulted (by simp [hp]) (by simp)
  | confirmed hi hp hn he =>
    rw [payloadAfter_kept hd (by simp [hi]) (by simp [hi]) (by simp [hi])]
    exact h.confirmed hp hn he
  | different hi hp hn he =>
    rw [payloadAfter_kept hd (by simp [hi]) (by simp [hi]) (by simp [hi])]
    exact h.faulted (by simp [hp]) (by simp)
  | readResult hi hp | readByte _ hi hp | readStatus hi =>
    rw [payloadAfter_kept hd (by simp [hi]) (by simp [hi]) (by simp [hi])]
    exact h

/-- Every event keeps the invariants of R28. -/
theorem step_tracks {s t : State} {e : Event} {rest : List Event} {p : List Byte} (hin : s.input = e :: rest)
    (hs : step s = .next t) (h : s.regs.Tracks p) : t.regs.Tracks (payloadAfter e s.regs p) := by
  rcases step_event_cases hin hs with ⟨rfl, ht⟩ | ⟨cw, i, rsp, rfl, hd, he⟩ | ⟨cw, ill, rfl, hd, -, ht⟩ |
    ⟨cw, ill, rfl, hd, hp, ht⟩
  · rw [ht]
    exact resetSatisfiesRegisterInvariants
  · exact he.tracks hd h
  · rw [payloadAfter_illegal hd, ht]
    exact h
  · rw [payloadAfter_illegal hd, ht]
    exact h.faulted hp (by simp)

/-- Settles O35: a step without an event keeps the state, and one with an event keeps the invariants by `step_tracks`. -/
theorem stepKeepsRegisterInvariants : Obligations.StepKeepsRegisterInvariants := by
  intro s t p h hs
  cases hin : s.input with
  | nil =>
    obtain rfl := eq_of_step_idle hin hs
    exact ⟨p, h, by simp, fun _ => rfl⟩
  | cons e rest =>
    refine ⟨payloadAfter e s.regs p, step_tracks hin hs h, ?_, by simp⟩
    rintro e' rest' heq
    obtain ⟨rfl, -⟩ := List.cons.inj heq
    rfl

end Sys2Proof.Machine
end

section
/-! R20: how the phase changes. -/

namespace Sys2Proof.Machine

open Sys2Proof

/-- What a command can do to the phase. -/
theorem CommandEffect.phase_cases {i : Instr} {r r' : Regs} {rsp : Word} (he : CommandEffect i r r' rsp) :
    r'.phase = r.phase ∨
    (i = .start ∧ r.phase = .idle ∧ r'.phase = .run) ∨
    (i = .finish ∧ r.phase = .run ∧ r'.phase = .done ∧ r.count.toNat = r.expect) ∨
    (r.phase ≠ .fault ∧ r'.phase = .fault ∧ r'.errcode ≠ .none) ∨
    (i = .clr ∧ r'.phase = .idle) := by
  have faults (hp : r.phase ≠ .fault) {code : ErrCode} (hc : code ≠ .none) :
      r.phase ≠ .fault ∧ (r.faulted code).phase = .fault ∧ (r.faulted code).errcode ≠ .none := ⟨hp, rfl, hc⟩
  cases he with
  | cleared hi => exact .inr (.inr (.inr (.inr ⟨hi, rfl⟩)))
  | started hi hp => exact .inr (.inl ⟨hi, hp, rfl⟩)
  | finished hi hp hc => exact .inr (.inr (.inl ⟨hi, hp, rfl, r.complete_iff.mp hc⟩))
  | misplaced hp _ => exact .inr (.inr (.inr (.inl (faults hp (by simp)))))
  | surplus _ _ hp _ | short _ hp _ | different _ hp _ _ =>
    exact .inr (.inr (.inr (.inl (faults (by simp [hp]) (by simp)))))
  | loadedDim sel v _ _ => exact .inl (r.withDim_phase sel v)
  | ignored | loadedByte | absorbed | readResult | readByte | confirmed | readStatus => exact .inl rfl

/-- Settles O28: every step by `step_event_cases` and `CommandEffect.phase_cases`; the changes happen by `exec_of_effect`. -/
theorem phaseChangesOnlyAsAllowed : Obligations.PhaseChangesOnlyAsAllowed := by
  refine ⟨⟨rfl, rfl, rfl, rfl⟩, ?_, fun s => ⟨?_, ?_, ?_, ?_, ?_⟩⟩
  · intro s t e rest hin hs
    rcases step_event_cases hin hs with ⟨rfl, ht⟩ | ⟨cw, i, rsp, rfl, hd, he⟩ | ⟨cw, ill, rfl, hd, -, ht⟩ |
      ⟨cw, ill, rfl, hd, hp, ht⟩
    · exact .inr (.inr (.inr (.inr ⟨by rw [ht]; rfl, .inl rfl⟩)))
    · rcases he.phase_cases with hk | ⟨rfl, hp, hp'⟩ | ⟨rfl, hp, hp', hc⟩ | ⟨hp, hp', hcode⟩ | ⟨rfl, hp'⟩
      · exact .inl hk
      · exact .inr (.inl ⟨hp, hp', cw, rfl, hd⟩)
      · exact .inr (.inr (.inl ⟨hp, hp', hc, cw, rfl, hd⟩))
      · exact .inr (.inr (.inr (.inl ⟨hp, hp', hcode, cw, rfl⟩)))
      · exact .inr (.inr (.inr (.inr ⟨hp', .inr ⟨cw, rfl, hd⟩⟩)))
    · exact .inl (by rw [ht])
    · exact .inr (.inr (.inr (.inl ⟨hp, by simp [ht], by simp [ht], cw, rfl⟩)))
  · exact fun hp => ⟨_, exec_of_effect (.started rfl hp), rfl⟩
  · exact fun hp hc => ⟨_, exec_of_effect (.finished rfl hp (s.regs.complete_iff.mpr hc)), rfl⟩
  · exact fun code _ => ⟨_, raiseFault_eq code s, rfl, rfl⟩
  · exact ⟨_, exec_of_effect (.cleared rfl), rfl⟩
  · exact ⟨_, rfl, rfl⟩

end Sys2Proof.Machine
end

section
/-! What no command reads: changing the register carries every effect over to the changed registers. -/

namespace Sys2Proof.Machine

open Sys2Proof

/-- The registers with another `CRC`, as O37's second run starts. -/
def Regs.withCrc (r : Regs) (c : Word) : Regs := { r with crc := c }

/-- The registers with another `MATCH`, as O38's second run starts. -/
def Regs.withMatched (r : Regs) (m : Bool) : Regs := { r with matched := m }

/-- Outside RUN, `CRC` is kept, or overwritten by a value that does not depend on it (R18). -/
theorem CommandEffect.withCrc {i : Instr} {r r' : Regs} {rsp : Word} (he : CommandEffect i r r' rsp)
    (hrun : r.phase ≠ .run) (c : Word) :
    ∃ c', CommandEffect i (r.withCrc c) (r'.withCrc c') rsp ∧ (c' = r'.crc ∨ (c' = c ∧ r'.crc = r.crc)) := by
  cases he with
  | absorbed _ _ hp _ | surplus _ _ hp _ | finished _ hp _ | short _ hp _ => exact absurd hp hrun
  | cleared hi => exact ⟨_, .cleared hi, .inl rfl⟩
  | started hi hp => exact ⟨_, .started hi hp, .inl rfl⟩
  | ignored hp hc hr => exact ⟨c, .ignored hp hc hr, .inr ⟨rfl, rfl⟩⟩
  | misplaced hp hm => exact ⟨c, .misplaced hp hm, .inr ⟨rfl, rfl⟩⟩
  | loadedDim sel v hi hp =>
    have hcomm : (r.withCrc c).withDim sel v = (r.withDim sel v).withCrc c := by cases sel <;> rfl
    exact ⟨c, hcomm ▸ .loadedDim sel v hi hp, .inr ⟨rfl, r.withDim_crc sel v⟩⟩
  | loadedByte x hi hp hn => exact ⟨c, .loadedByte x hi hp hn, .inr ⟨rfl, rfl⟩⟩
  | readResult hi hp => exact ⟨c, .readResult hi hp, .inr ⟨rfl, rfl⟩⟩
  | readByte sel hi hp => exact ⟨c, .readByte sel hi hp, .inr ⟨rfl, rfl⟩⟩
  | confirmed hi hp hn he => exact ⟨c, .confirmed hi hp hn he, .inr ⟨rfl, rfl⟩⟩
  | different hi hp hn he => exact ⟨c, .different hi hp hn he, .inr ⟨rfl, rfl⟩⟩
  | readStatus hi => exact ⟨c, .readStatus hi, .inr ⟨rfl, rfl⟩⟩

/-- Only RDST reads `MATCH` (R22). -/
theorem CommandEffect.withMatched {i : Instr} {r r' : Regs} {rsp : Word} (he : CommandEffect i r r' rsp)
    (hi : i ≠ .rdst) (m : Bool) : ∃ m', CommandEffect i (r.withMatched m) (r'.withMatched m') rsp := by
  cases he with
  | readStatus h => exact absurd h hi
  | cleared hi => exact ⟨_, .cleared hi⟩
  | confirmed hi hp hn he => exact ⟨_, .confirmed hi hp hn he⟩
  | ignored hp hc hr => exact ⟨m, .ignored hp hc hr⟩
  | misplaced hp hm => exact ⟨m, .misplaced hp hm⟩
  | loadedDim sel v hi hp =>
    have hcomm : (r.withMatched m).withDim sel v = (r.withDim sel v).withMatched m := by cases sel <;> rfl
    exact ⟨m, hcomm ▸ .loadedDim sel v hi hp⟩
  | loadedByte x hi hp hn => exact ⟨m, .loadedByte x hi hp hn⟩
  | started hi hp => exact ⟨m, .started hi hp⟩
  | absorbed x hi hp hc => exact ⟨m, .absorbed x hi hp hc⟩
  | surplus x hi hp hc => exact ⟨m, .surplus x hi hp hc⟩
  | finished hi hp hc => exact ⟨m, .finished hi hp hc⟩
  | short hi hp hc => exact ⟨m, .short hi hp hc⟩
  | readResult hi hp => exact ⟨m, .readResult hi hp⟩
  | readByte sel hi hp => exact ⟨m, .readByte sel hi hp⟩
  | different hi hp hn he => exact ⟨m, .different hi hp hn he⟩

/-- Only CHECK and CLR write `MATCH` (R22). -/
theorem CommandEffect.matched_eq {i : Instr} {r r' : Regs} {rsp : Word} (he : CommandEffect i r r' rsp)
    (hcheck : i ≠ .check) (hclr : i ≠ .clr) : r'.matched = r.matched := by
  cases he with
  | cleared hi => exact absurd hi hclr
  | confirmed hi => exact absurd hi hcheck
  | loadedDim sel v => exact r.withDim_matched sel v
  | ignored | misplaced | loadedByte | started | absorbed | surplus | finished | short | readResult | readByte | different
  | readStatus => rfl

theorem CommandEffect.clr_matched {r r' : Regs} {rsp : Word} (he : CommandEffect .clr r r' rsp) : r'.matched = false := by
  cases he with
  | cleared => rfl
  | ignored _ hc => exact absurd rfl hc
  | misplaced _ hm => exact hm.elim
  | loadedDim _ _ hi | loadedByte _ hi | started hi | absorbed _ hi | surplus _ hi | finished hi | short hi
  | readResult hi | readByte _ hi | confirmed hi | different hi | readStatus hi => cases hi

/-- CHECK sets `MATCH` when it finds a complete stored checksum equal to `RESULT`, and otherwise leaves it (R22, R90). -/
theorem CommandEffect.check_matched {r r' : Regs} {rsp : Word} (he : CommandEffect .check r r' rsp) :
    r'.matched = if r.phase = .done ∧ r.nld.val = 4 ∧ r.result = r.stored then true else r.matched := by
  have kept (h : ¬(r.phase = .done ∧ r.nld.val = 4 ∧ r.result = r.stored)) :
      r.matched = if r.phase = .done ∧ r.nld.val = 4 ∧ r.result = r.stored then true else r.matched := (if_neg h).symm
  cases he with
  | confirmed _ hp hn he => exact (if_pos ⟨hp, congrArg Fin.val hn, he⟩).symm
  | different _ _ _ he => exact kept fun ⟨_, _, he'⟩ => he he'
  | ignored hp => exact kept fun ⟨hd, _⟩ => by simp [hp] at hd
  | misplaced _ hm => exact kept fun ⟨hd, hn, _⟩ => hm.elim (· hd) (· (Fin.ext hn))
  | cleared hi | loadedDim _ _ hi | loadedByte _ hi | started hi | absorbed _ hi | surplus _ hi | finished hi | short hi
  | readResult hi | readByte _ hi | readStatus hi => cases hi

/-- Settles O37: the effect on the changed registers is `exec`'s own by `exec_of_effect`. -/
theorem crcIsUnreadOutsideRun : Obligations.CrcIsUnreadOutsideRun := by
  intro i s c hrun
  obtain ⟨r, rsp, hx, he⟩ := exec_effect i s
  obtain ⟨c', he', hc'⟩ := he.withCrc hrun c
  exact ⟨r, rsp, c', hx, exec_of_effect (s := { s with regs := s.regs.withCrc c }) he', hc'⟩

/-- Settles O38, each clause by the lemma about the effects that it speaks of. -/
theorem matchIsReadOnlyByRdst : Obligations.MatchIsReadOnlyByRdst := by
  refine ⟨?_, ?_, ?_, ?_, rfl⟩
  · intro i s m hi
    obtain ⟨r, rsp, hx, he⟩ := exec_effect i s
    obtain ⟨m', he'⟩ := he.withMatched hi m
    exact ⟨r, rsp, m', hx, exec_of_effect (s := { s with regs := s.regs.withMatched m }) he'⟩
  · intro i s t hcheck hclr hx
    obtain ⟨r, rsp, rfl, he⟩ := effect_of_exec hx
    exact he.matched_eq hcheck hclr
  · intro s t hx
    obtain ⟨r, rsp, rfl, he⟩ := effect_of_exec hx
    exact he.clr_matched
  · intro s t hx
    obtain ⟨r, rsp, rfl, he⟩ := effect_of_exec hx
    exact he.check_matched

end Sys2Proof.Machine
end

section
/-! R29, R30: CLR and reset leave nothing of what was before. -/

namespace Sys2Proof.Machine

open Sys2Proof

theorem performWord_encode_clr (s : State) : performWord (encode .clr) s = .next (s.answer Regs.reset 0) := by
  have hd : decode (encode .clr) = .ok .clr := by decide
  simp only [performWord, hd]
  exact exec_of_effect (.cleared rfl)

/-- Settles O31: the registers are written out in `Regs.reset`, and CLR answers with them in every phase. -/
theorem resetHoldsZeroEverywhere : Obligations.ResetHoldsZeroEverywhere :=
  ⟨rfl, Regs.reset_status, fun _ => ⟨_, exec_of_effect (.cleared rfl), rfl⟩⟩

/-- Settles O39: after CLR the words run on the reset registers, and what they do depends on the registers alone
(`presentAll_ports`). -/
theorem nothingSurvivesClr : Obligations.NothingSurvivesClr := by
  intro s s' ws
  obtain ⟨r, rsps, hlen, hrun⟩ := presentAll_ports ws Regs.reset
  have fromState (u : State) : presentAll (encode .clr :: ws) u =
      .next { u with regs := r, responses := u.responses ++ 0 :: rsps } := by
    rw [presentAll_cons, performWord_encode_clr, andThen_next, List.append_cons]
    exact hrun u.input (u.responses ++ [0])
  exact ⟨r, 0 :: rsps, fromState s, fromState s', by simp [hlen]⟩

end Sys2Proof.Machine
end

section
/-! R47, R48: the word in front of the host's stream is performed next, so a stream of command words is run as their left fold. -/

namespace Sys2Proof.Machine

open Sys2Proof

theorem performWord_of_decode {cw : Word} {i : Instr} (hd : decode cw = .ok i) (s : State) :
    performWord cw s = exec i s := by
  simp only [performWord, hd]

theorem tableWord_of_lt {w : Nat} (hw : w < 2 ^ 32) : tableWord 32 w = BitVec.ofNat 32 w := by
  rw [tableWord, Nat.mod_eq_of_lt hw]

/-- Settles O18: placing a word is presenting it (`present_eq`), and a table word of 32 bits is the word itself. -/
theorem placedWordIsFetchedNext : Obligations.PlacedWordIsFetchedNext := by
  intro s w i hw hd
  calc step (s.withFetchWord 32 w)
    _ = performWord (tableWord 32 w) s := present_eq _ s
    _ = performWord (BitVec.ofNat 32 w) s := by rw [tableWord_of_lt hw]
    _ = exec i s := performWord_of_decode hd s

theorem runSteps_succ_of_command {s : State} {cw : Word} {rest : List Event} (hin : s.input = .command cw :: rest)
    (n : Nat) : runSteps (n + 1) s = andThen (performWord cw (s.withInput rest)) (runSteps n) := by
  simp only [runSteps, step, hin, performEvent]

/-- Settles O33, by induction on the words: each does the same to the registers and the responses whether the words after it
stand in the stream or are presented later (`performWord_ports`). -/
theorem streamIsTheFoldOfItsCommands : Obligations.StreamIsTheFoldOfItsCommands := by
  intro ws s
  induction ws generalizing s with
  | nil => rfl
  | cons w ws ih =>
    obtain ⟨r, rsp, hw⟩ := performWord_ports w s.regs
    calc runSteps (ws.length + 1) { s with input := .command w :: ws.map .command }
      _ = andThen (performWord w { s with input := ws.map .command }) (runSteps ws.length) :=
        runSteps_succ_of_command rfl _
      _ = runSteps ws.length ⟨r, ws.map .command, s.responses ++ [rsp]⟩ := by rw [hw, andThen_next]
      _ = presentAll ws ⟨r, [], s.responses ++ [rsp]⟩ := ih ⟨r, [], s.responses ++ [rsp]⟩
      _ = presentAll (w :: ws) { s with input := [] } := by rw [presentAll_cons, hw, andThen_next]

end Sys2Proof.Machine
end

section
/-! R31, R32: the bytes of a little-endian value, and what the host reads at the offsets of the header's nine fields. -/

namespace Sys2Proof.Machine

open Sys2Proof

@[simp] theorem leBytes_length {k : Nat} (n : Nat) (v : BitVec k) : (leBytes n v).length = n := by
  simp [leBytes]

/-- Byte `i` of a little-endian value is its digit `i` in base 256. -/
theorem leBytes_getElem? {k n i : Nat} (v : BitVec k) (hi : i < n) :
    (leBytes n v)[i]? = some (BitVec.ofNat 8 (v.toNat / 256 ^ i)) := by
  have hbyte : v.extractLsb' (8 * i) 8 = BitVec.ofNat 8 (v.toNat / 256 ^ i) := by
    rw [BitVec.extractLsb', Nat.shiftRight_eq_div_pow, Nat.pow_mul]
  simp [leBytes, hi, hbyte]

theorem memRead_getElem? {n i : Nat} (bytes : List Byte) (o : Nat) (hi : i < n) :
    (memRead bytes o n)[i]? = bytes[o + i]? := by
  rw [memRead, List.getElem?_take_of_lt hi, List.getElem?_drop]

/-- Where the host reads the bytes of a value, the file holds the value's digits in base 256. -/
theorem getElem?_of_memRead {k n o : Nat} {bytes : List Byte} {v : BitVec k} (h : memRead bytes o n = leBytes n v) :
    ∀ i < n, bytes[o + i]? = some (BitVec.ofNat 8 (v.toNat / 256 ^ i)) := by
  intro i hi
  rw [← memRead_getElem? bytes o hi, h, leBytes_getElem? v hi]

namespace FrameHeader

variable (f : FrameHeader)

@[simp] theorem toBytes_length : f.toBytes.length = 32 := by
  simp [toBytes]

theorem memRead_magic : memRead f.toBytes 0 4 = leBytes 4 f.magic := rfl
theorem memRead_width : memRead f.toBytes 4 2 = leBytes 2 f.width := rfl
theorem memRead_height : memRead f.toBytes 6 2 = leBytes 2 f.height := rfl
theorem memRead_depth : memRead f.toBytes 8 2 = leBytes 2 f.depth := rfl
theorem memRead_bytesPerVoxel : memRead f.toBytes 10 2 = leBytes 2 f.bytesPerVoxel := rfl
theorem memRead_frameNumber : memRead f.toBytes 12 4 = leBytes 4 f.frameNumber := rfl
theorem memRead_timestampMicros : memRead f.toBytes 16 8 = leBytes 8 f.timestampMicros := rfl
theorem memRead_reserved : memRead f.toBytes 24 4 = leBytes 4 f.reserved := rfl
theorem memRead_checksum : memRead f.toBytes 28 4 = leBytes 4 f.checksum := rfl

end FrameHeader

/-- Settles O53: each field's bytes are what the host reads at its offset. -/
theorem headerFieldsStandAtTheirOffsets : Obligations.HeaderFieldsStandAtTheirOffsets :=
  ⟨rfl, fun f => ⟨f.toBytes_length,
    fun i hi => by simpa using getElem?_of_memRead f.memRead_magic i hi,
    getElem?_of_memRead f.memRead_width,
    getElem?_of_memRead f.memRead_height,
    getElem?_of_memRead f.memRead_depth,
    getElem?_of_memRead f.memRead_bytesPerVoxel,
    getElem?_of_memRead f.memRead_frameNumber,
    getElem?_of_memRead f.memRead_timestampMicros,
    getElem?_of_memRead f.memRead_reserved,
    getElem?_of_memRead f.memRead_checksum⟩⟩

end Sys2Proof.Machine
end

section
/-! R60 "Encoding is the inverse": each format's word is rebuilt from its fields, so `decode` and `encode` undo each other. -/

namespace Sys2Proof

/-- R54: a word of format N is its opcode. -/
theorem formatN_of_fields {cw : Word} {op : Byte} (hop : fieldOpcode cw = op) (hz : reservedZeroN cw = true) :
    formatN op = cw := by
  have hlow : cw.extractLsb' 0 24 = 0#24 := eq_of_beq hz
  conv_rhs => rw [word_eq_opcode_field cw, hop, hlow]
  simp [formatN]

/-- R55: a word of format S is its opcode and its selector. -/
theorem formatS_of_fields {cw : Word} {op : Byte} (hop : fieldOpcode cw = op) (hz : reservedZeroS cw = true) :
    formatS op (fieldSel cw) = cw := by
  obtain ⟨hmid, hlow⟩ : cw.extractLsb' 18 6 = 0#6 ∧ fieldImm16 cw = 0#16 := by
    simpa [reservedZeroS, fieldImm16] using hz
  conv_rhs => rw [word_eq_selector_fields cw, hop, hmid, hlow]
  simp [formatS]

/-- R56: a word of format B is its opcode and its byte. -/
theorem formatB_of_fields {cw : Word} {op : Byte} (hop : fieldOpcode cw = op) (hz : reservedZeroB cw = true) :
    formatB op (fieldImm8 cw) = cw := by
  have hmid : cw.extractLsb' 8 16 = 0#16 := eq_of_beq hz
  conv_rhs => rw [word_eq_byte_fields cw, hop, hmid]
  simp [formatB]

/-- R57: a word of format H is its opcode, its selector and its halfword. -/
theorem formatH_of_fields {cw : Word} {op : Byte} (hop : fieldOpcode cw = op) (hz : reservedZeroH cw = true) :
    formatH op (fieldSel cw) (fieldImm16 cw) = cw := by
  have hmid : cw.extractLsb' 18 6 = 0#6 := eq_of_beq hz
  conv_rhs => rw [word_eq_selector_fields cw, hop, hmid]
  simp [formatH]

theorem encode_setdim_of_fields {cw : Word} (hop : fieldOpcode cw = 0x02) (hz : reservedZeroH cw = true) :
    encode (.setdim (dimOfSel (fieldSel cw)) (fieldImm16 cw)) = cw := by
  rw [encode, selOfDim_dimOfSel]
  exact formatH_of_fields hop hz

/-- The opcode selects the command's arm, its format's zero bits are zero, and the fields read back. -/
theorem decode_encode (i : Instr) : decode (encode i) = .ok i := by
  cases i <;> simp [decode, encode, acceptIf]

/-- By the decoder's arms: each fixes the opcode and the zero bits, so its format rebuilds the word. -/
theorem encode_of_decode {cw : Word} {i : Instr} (h : decode cw = .ok i) : encode i = cw := by
  have opcode_eq {op : Byte} (hop : (fieldOpcode cw).toNat = op.toNat) : fieldOpcode cw = op :=
    BitVec.eq_of_toNat_eq hop
  unfold decode at h
  split at h
  case h_11 => cases h
  all_goals obtain ⟨hz, rfl⟩ := acceptIf_ok h
  case h_2 hop => exact encode_setdim_of_fields (opcode_eq hop) hz
  case h_7 hop => exact formatS_of_fields (opcode_eq hop) hz
  case h_4 hop | h_8 hop => exact formatB_of_fields (opcode_eq hop) hz
  case h_1 hop | h_3 hop | h_5 hop | h_6 hop | h_9 hop | h_10 hop => exact formatN_of_fields (opcode_eq hop) hz

theorem decode_eq_ok_iff {cw : Word} {i : Instr} : decode cw = .ok i ↔ encode i = cw :=
  ⟨encode_of_decode, fun h => h ▸ decode_encode i⟩

theorem encode_injective : Function.Injective encode := fun i j h =>
  Except.ok.inj ((decode_encode i).symm.trans ((congrArg decode h).trans (decode_encode j)))

/-- Settles O12, by `decode_encode`. -/
theorem decodeOfEncodeIsTheCommand : Obligations.DecodeOfEncodeIsTheCommand := decode_encode

/-- Settles O13, by `encode_of_decode`. -/
theorem encodeOfDecodeIsTheWord : Obligations.EncodeOfDecodeIsTheWord := fun _ _ => encode_of_decode

end Sys2Proof
end

section
/-! R59 to R61: the legal words as the rows of the opcode map, the illegal ones by their bits, and how many are legal. -/

namespace Sys2Proof

open Sys2Proof.Claims

/-! ### The rows of the opcode map -/

/-- Every command's word selects the command's row. -/
theorem encode_and_mask (i : Instr) : encode i &&& (rowOf i).2 = (rowOf i).1 := by
  have hrow : Laws.WordInRow.Statement i := by
    cases i with
    | clr => exact Laws.WordInRow.clr
    | setdim sel v => exact Laws.WordInRow.setdim sel v
    | start => exact Laws.WordInRow.start
    | data x => exact Laws.WordInRow.data x
    | finish => exact Laws.WordInRow.finish
    | rdck => exact Laws.WordInRow.rdck
    | rdckb sel => exact Laws.WordInRow.rdckb sel
    | ldckb x => exact Laws.WordInRow.ldckb x
    | check => exact Laws.WordInRow.check
    | rdst => exact Laws.WordInRow.rdst
  exact eq_of_beq hrow

theorem rowOf_mem_opcodeMap (i : Instr) : rowOf i ∈ opcodeMap := by
  cases i <;> simp [rowOf, opcodeMap]

/-- The opcode names the row. -/
theorem opcodeMap_opcodes_nodup : (opcodeMap.map fun row => fieldOpcode row.1).Nodup := by decide

/-- Every row fixes the opcode. -/
theorem opcodeMap_masks_keep_opcode : ∀ row ∈ opcodeMap, fieldOpcode row.2 = BitVec.allOnes 8 := by
  simp [opcodeMap, fieldOpcode]

/-- Where the mask is all ones, a word that selects a row has the row's bits. -/
theorem extract_of_and_mask {cw mask m : Word} (h : cw &&& mask = m) (a n : Nat)
    (hm : mask.extractLsb' a n = BitVec.allOnes n) : cw.extractLsb' a n = m.extractLsb' a n := by
  rw [← h, BitVec.extractLsb'_and, hm, BitVec.and_allOnes]

theorem fieldOpcode_of_selects {cw : Word} {row : Word × Word} (hmem : row ∈ opcodeMap) (h : cw &&& row.2 = row.1) :
    fieldOpcode cw = fieldOpcode row.1 :=
  extract_of_and_mask h 24 8 (opcodeMap_masks_keep_opcode row hmem)

theorem formatN_of_selects {cw m : Word} {op : Byte} (h : cw &&& 0xFFFFFFFF = m) (hm : formatN op = m) :
    formatN op = cw := by
  rw [hm, ← h]
  exact BitVec.and_allOnes

theorem formatB_of_selects {cw m : Word} {op : Byte} (h : cw &&& 0xFFFFFF00 = m) (hm : formatB op 0 = m) :
    formatB op (fieldImm8 cw) = cw := by
  subst hm
  refine formatB_of_fields ?_ ?_
  · exact (extract_of_and_mask h 24 8 (by decide)).trans (fieldOpcode_formatB op 0)
  · exact beq_of_eq ((extract_of_and_mask h 8 16 (by decide)).trans (eq_of_beq (reservedZeroB_formatB op 0)))

/-- A word that selects a row is the encoding of a command of that row. -/
theorem exists_encode_of_selects {cw : Word} {row : Word × Word} (hmem : row ∈ opcodeMap) (h : cw &&& row.2 = row.1) :
    ∃ i, encode i = cw := by
  simp only [opcodeMap, List.mem_cons, List.not_mem_nil, or_false] at hmem
  rcases hmem with rfl | rfl | rfl | rfl | rfl | rfl | rfl | rfl | rfl | rfl
  · exact ⟨.clr, formatN_of_selects h rfl⟩
  · exact ⟨_, encode_setdim_of_fields (extract_of_and_mask h 24 8 (by decide))
      (beq_of_eq (extract_of_and_mask h 18 6 (by decide)))⟩
  · exact ⟨.start, formatN_of_selects h rfl⟩
  · exact ⟨.data (fieldImm8 cw), formatB_of_selects h rfl⟩
  · exact ⟨.finish, formatN_of_selects h rfl⟩
  · exact ⟨.rdck, formatN_of_selects h rfl⟩
  · refine ⟨.rdckb (fieldSel cw), formatS_of_fields (extract_of_and_mask h 24 8 (by decide)) ?_⟩
    rw [reservedZeroS, extract_of_and_mask h 18 6 (by decide), extract_of_and_mask h 0 16 (by decide)]
    rfl
  · exact ⟨.ldckb (fieldImm8 cw), formatB_of_selects h rfl⟩
  · exact ⟨.check, formatN_of_selects h rfl⟩
  · exact ⟨.rdst, formatN_of_selects h rfl⟩

/-- Settles O14: a legal word is `encode i`, which selects `rowOf i`, and a row's word is rebuilt by its format; two rows that
one word selects have its opcode. -/
theorem legalWordsAreTheTenRows : Obligations.LegalWordsAreTheTenRows := by
  intro cw
  have own_row {i : Instr} (hd : decode cw = .ok i) : cw &&& (rowOf i).2 = (rowOf i).1 :=
    encode_of_decode hd ▸ encode_and_mask i
  refine ⟨⟨?_, ?_⟩, ?_, fun i => own_row⟩
  · rintro ⟨i, hd⟩
    exact ⟨rowOf i, rowOf_mem_opcodeMap i, own_row hd⟩
  · rintro ⟨row, hmem, h⟩
    exact (exists_encode_of_selects hmem h).imp fun _ => decode_eq_ok_iff.mpr
  · intro row hmem row' hmem' h h'
    refine List.inj_on_of_nodup_map opcodeMap_opcodes_nodup hmem hmem' ?_
    exact (fieldOpcode_of_selects hmem h).symm.trans (fieldOpcode_of_selects hmem' h')

/-! ### The illegal words -/

/-- The decoder rejects a defined opcode when a bit of its format that must be zero is set. -/
theorem acceptIf_error_iff {reservedZero : Bool} {cw : Word} {i : Instr} :
    (∃ e, acceptIf reservedZero cw i = .error e) ↔ reservedZero = false := by
  cases reservedZero <;> simp [acceptIf]

/-- Settles O15, by the decoder's arms: the last takes the undefined opcodes, and each of the others tests its
format's zero bits. -/
theorem illegalWordsAreTheOnesNamed : Obligations.IllegalWordsAreTheOnesNamed := by
  intro cw
  unfold decode fieldOpcode
  split
  case h_11 => split <;> simp_all
  case h_2 hop => simp [hop, acceptIf_error_iff, reservedZeroH]
  case h_7 hop => simp [hop, acceptIf_error_iff, reservedZeroS, imp_iff_not_or]
  case h_4 hop | h_8 hop => simp [hop, acceptIf_error_iff, reservedZeroB]
  case h_1 hop | h_3 hop | h_5 hop | h_6 hop | h_9 hop | h_10 hop => simp [hop, acceptIf_error_iff, reservedZeroN]

/-! ### The number of legal words -/

/-- The values of a field of `n` bits. -/
def fieldValues (n : Nat) : List (BitVec n) := (List.finRange (2 ^ n)).map BitVec.ofFin

theorem mem_fieldValues {n : Nat} (x : BitVec n) : x ∈ fieldValues n :=
  List.mem_map.mpr ⟨x.toFin, List.mem_finRange _, rfl⟩

theorem fieldValues_nodup (n : Nat) : (fieldValues n).Nodup :=
  (List.nodup_finRange _).map fun _ _ => BitVec.ofFin.inj

theorem fieldValues_length (n : Nat) : (fieldValues n).length = 2 ^ n := by simp [fieldValues]

/-- SETDIM of each register with these halfwords. -/
def setdimsOver (halves : List Half) : List Instr :=
  ([.w, .h, .d, .b] : List DimReg).flatMap fun sel => halves.map (.setdim sel)

/-- The commands with these operands, by format: N, B, S, H. -/
def commandsOver (halves : List Half) (bytes : List Byte) (sels : List (BitVec 2)) : List Instr :=
  List.flatten [[.clr, .start, .finish, .rdck, .check, .rdst], bytes.map .data, bytes.map .ldckb, sels.map .rdckb,
    setdimsOver halves]

section

variable {halves : List Half} {bytes : List Byte} {sels : List (BitVec 2)}

theorem mem_setdimsOver {i : Instr} : i ∈ setdimsOver halves ↔ ∃ sel, ∃ v ∈ halves, .setdim sel v = i := by
  have hdims (sel : DimReg) : sel ∈ ([.w, .h, .d, .b] : List DimReg) := by cases sel <;> decide
  simp only [setdimsOver, List.mem_flatMap, List.mem_map, hdims, true_and]

theorem setdimsOver_nodup (hh : halves.Nodup) : (setdimsOver halves).Nodup := by
  have hone (sel : DimReg) : (halves.map (Instr.setdim sel)).Nodup := hh.map fun _ _ h => (Instr.setdim.inj h).2
  simp [setdimsOver, List.nodup_append', List.disjoint_left, hone]

theorem setdimsOver_length : (setdimsOver halves).length = 4 * halves.length := by
  simp only [setdimsOver, List.length_flatMap, List.length_map, List.map_cons, List.map_nil, List.sum_cons, List.sum_nil]
  omega

theorem mem_commandsOver (hh : ∀ v, v ∈ halves) (hb : ∀ x, x ∈ bytes) (hs : ∀ sel, sel ∈ sels) (i : Instr) :
    i ∈ commandsOver halves bytes sels := by
  cases i <;> simp [commandsOver, mem_setdimsOver, hh, hb, hs]

theorem commandsOver_nodup (hh : halves.Nodup) (hb : bytes.Nodup) (hs : sels.Nodup) :
    (commandsOver halves bytes sels).Nodup := by
  have hdata : (bytes.map Instr.data).Nodup := hb.map fun _ _ => Instr.data.inj
  have hldckb : (bytes.map Instr.ldckb).Nodup := hb.map fun _ _ => Instr.ldckb.inj
  have hrdckb : (sels.map Instr.rdckb).Nodup := hs.map fun _ _ => Instr.rdckb.inj
  simp [commandsOver, List.nodup_append', List.disjoint_left, mem_setdimsOver, setdimsOver_nodup hh, hdata, hldckb, hrdckb]

theorem commandsOver_length :
    (commandsOver halves bytes sels).length = 6 + 2 * bytes.length + sels.length + 4 * halves.length := by
  simp [commandsOver, setdimsOver_length]
  omega

end

/-- Every command. -/
def allCommands : List Instr := commandsOver (fieldValues 16) (fieldValues 8) (fieldValues 2)

theorem mem_allCommands (i : Instr) : i ∈ allCommands :=
  mem_commandsOver mem_fieldValues mem_fieldValues mem_fieldValues i

theorem allCommands_nodup : allCommands.Nodup :=
  commandsOver_nodup (fieldValues_nodup 16) (fieldValues_nodup 8) (fieldValues_nodup 2)

theorem allCommands_length : allCommands.length = 262666 := by
  rw [allCommands, commandsOver_length, fieldValues_length, fieldValues_length, fieldValues_length]
  norm_num

/-- Settles O16: the words of all commands, each once because `encode` is injective. -/
theorem legalWordsAre262666 : Obligations.LegalWordsAre262666 := by
  refine ⟨allCommands.map encode, allCommands_nodup.map encode_injective, ?_, fun cw => ?_⟩
  · rw [List.length_map, allCommands_length]
  · simp [mem_allCommands, decode_eq_ok_iff]

/-- Settles O11: seventeen legal words and sixteen illegal ones, written out. -/
theorem specWordsDecodeToTheirCommands : Obligations.SpecWordsDecodeToTheirCommands :=
  ⟨by decide, by decide, by decide⟩

end Sys2Proof
end

section
/-! R63, R64: a step performs the presented word and answers it once. -/

namespace Sys2Proof.Machine

open Sys2Proof

theorem step_of_command {s : State} {cw : Word} {rest : List Event} (hin : s.input = .command cw :: rest) :
    step s = performWord cw (s.withInput rest) := by
  simp only [step, hin, performEvent]

/-- Settles O17, by `performWord_of_decode`. -/
theorem stepRunsTheDecodedCommand : Obligations.StepRunsTheDecodedCommand := by
  intro s cw rest i hin hd
  rw [step_of_command hin, performWord_of_decode hd]
  rfl

/-- Settles O21: a next state in each case of `step_cases`. -/
theorem stepIsTotal : Obligations.StepIsTotal := by
  intro s
  rcases step_cases s with ⟨-, hs⟩ | ⟨_, -, hs⟩ | ⟨_, _, _, _, _, -, -, -, hs⟩ | ⟨_, _, _, -, -, -, hs⟩ |
    ⟨_, _, _, -, -, -, hs⟩
  all_goals exact ⟨_, hs⟩

/-- A response byte is a digit of the value in base 256 (R89). -/
theorem byteOf_setWidth_toNat (v : Word) (i : Nat) :
    ((byteOf v i).setWidth 32).toNat = v.toNat / 256 ^ i % 256 := by
  have h256 : 2 ^ (8 * i) = 256 ^ i := by rw [Nat.pow_mul]
  rw [byteOf, BitVec.toNat_setWidth_of_le (by decide), BitVec.extractLsb'_toNat, Nat.shiftRight_eq_div_pow, h256]

namespace CommandEffect

variable {i : Instr} {r r' : Regs} {rsp : Word}

/-- A command has one effect: `exec` answers with it. -/
theorem unique {r₁ r₂ : Regs} {rsp₁ rsp₂ : Word} (h₁ : CommandEffect i r r₁ rsp₁) (h₂ : CommandEffect i r r₂ rsp₂) :
    r₁ = r₂ ∧ rsp₁ = rsp₂ := by
  have h := (exec_of_effect (s := ⟨r, [], []⟩) h₁).symm.trans (exec_of_effect (s := ⟨r, [], []⟩) h₂)
  simpa [State.answer] using h

/-- A response other than 0 is a result read in DONE, a match found in DONE, or the status (R64). -/
theorem response_cases (he : CommandEffect i r r' rsp) :
    rsp = 0 ∨ i = .rdst ∨
    ((i = .rdck ∨ (∃ sel, i = .rdckb sel) ∨ i = .check) ∧ r.phase = .done ∧ r'.phase = .done) := by
  cases he with
  | readStatus hi => exact .inr (.inl hi)
  | readResult hi hp => exact .inr (.inr ⟨.inl hi, hp, hp⟩)
  | readByte sel hi hp => exact .inr (.inr ⟨.inr (.inl ⟨sel, hi⟩), hp, hp⟩)
  | confirmed hi hp => exact .inr (.inr ⟨.inr (.inr hi), hp, hp⟩)
  | cleared | ignored | misplaced | loadedDim | loadedByte | started | absorbed | surplus | finished | short
  | different => exact .inl rfl

/-- CHECK stays in DONE only when it finds a match (R90). -/
theorem check_response (he : CommandEffect .check r r' rsp) (hp' : r'.phase = .done) : rsp = 1 := by
  cases he with
  | confirmed => rfl
  | ignored hp => simp_all
  | misplaced | different => simp at hp'
  | cleared hi | loadedDim _ _ hi | loadedByte _ hi | started hi | absorbed _ hi | surplus _ hi | finished hi | short hi
  | readResult hi | readByte _ hi | readStatus hi => cases hi

end CommandEffect

/-- Settles O22: a legal word answers with its command's effect, whose response the lemmas above give; an illegal one answers
0. -/
theorem everyCommandAnswersOneResponse : Obligations.EveryCommandAnswersOneResponse := by
  intro s cw rest hin
  have hstep := step_of_command hin
  cases hd : decode cw with
  | error e =>
    have hill : ∃ r, step s = .next ((s.withInput rest).answer r 0) := by
      rw [hstep, performWord, hd]
      rcases illegalWord_cases (s.withInput rest) with ⟨-, h⟩ | ⟨-, h⟩ <;> exact ⟨_, h⟩
    obtain ⟨r, hs⟩ := hill
    exact ⟨_, hs, rfl, 0, rfl, by simp⟩
  | ok i =>
    obtain ⟨r, rsp, hx, he⟩ := exec_effect i (s.withInput rest)
    rw [performWord_of_decode hd, hx] at hstep
    refine ⟨_, hstep, rfl, rsp, rfl, ?_⟩
    simp only [Except.ok.injEq, ne_eq]
    refine ⟨?_, ?_, ?_, ?_, ?_, ?_⟩
    · rintro rfl hp
      exact (he.unique (.readResult rfl hp)).2
    · rintro sel rfl hp
      rw [(he.unique (.readByte sel rfl hp)).2]
      exact byteOf_setWidth_toNat _ _
    · rintro rfl hp
      exact he.check_response hp
    · rintro rfl
      exact (he.unique (.readStatus rfl)).2
    · intro hrdst hfault
      rcases he.response_cases with h | h | ⟨-, hp, hp'⟩
      · exact h
      · exact absurd h hrdst
      · simp_all
    · rintro ⟨hrdck, hrdckb, hcheck, hrdst⟩
      rcases he.response_cases with h | h | ⟨h | ⟨sel, h⟩ | h, -⟩
      · exact h
      · exact absurd h hrdst
      · exact absurd h hrdck
      · exact absurd h (hrdckb sel)
      · exact absurd h hcheck

end Sys2Proof.Machine
end

section
/-! R65: a command's word as a number, and the words of the assembler's table. -/

namespace Sys2Proof.Machine

open Sys2Proof

/-- A placed field as a number. -/
theorem place_eq_ofNat {k : Nat} (x : BitVec k) (lo : Nat) : place x lo = BitVec.ofNat 32 (2 ^ lo * x.toNat) := by
  apply BitVec.eq_of_toNat_eq
  simp [place, Nat.shiftLeft_eq, Nat.mul_comm]

/-- Fields one above the other add up. -/
theorem ofNat_or_ofNat {a b lo : Nat} (hb : b < 2 ^ lo) :
    BitVec.ofNat 32 (2 ^ lo * a) ||| BitVec.ofNat 32 b = BitVec.ofNat 32 (2 ^ lo * a + b) := by
  rw [Nat.two_pow_add_eq_or_of_lt hb, BitVec.ofNat_or]

theorem formatN_eq_ofNat (op : Byte) : formatN op = BitVec.ofNat 32 (2 ^ 24 * op.toNat) := place_eq_ofNat op 24

theorem formatB_eq_ofNat (op x : Byte) : formatB op x = BitVec.ofNat 32 (2 ^ 24 * op.toNat + x.toNat) := by
  rw [formatB, place_eq_ofNat, place_eq_ofNat, Nat.pow_zero, Nat.one_mul,
    ofNat_or_ofNat (x.isLt.trans (by decide))]

theorem formatS_eq_ofNat (op : Byte) (sel : BitVec 2) :
    formatS op sel = BitVec.ofNat 32 (2 ^ 24 * op.toNat + 2 ^ 16 * sel.toNat) := by
  have hsel := sel.isLt
  rw [formatS, place_eq_ofNat, place_eq_ofNat, ofNat_or_ofNat (by omega)]

theorem formatH_eq_ofNat (op : Byte) (sel : BitVec 2) (v : Half) :
    formatH op sel v = BitVec.ofNat 32 (2 ^ 24 * op.toNat + 2 ^ 16 * sel.toNat + v.toNat) := by
  have hv := v.isLt
  have hhigh : 2 ^ 24 * op.toNat + 2 ^ 16 * sel.toNat = 2 ^ 16 * (2 ^ 8 * op.toNat + sel.toNat) := by ring
  have hword : formatH op sel v = formatS op sel ||| place v 0 := rfl
  rw [hword, formatS_eq_ofNat, place_eq_ofNat, Nat.pow_zero, Nat.one_mul, hhigh, ofNat_or_ofNat hv]

theorem formatB_ofNat (op : Byte) {n : Nat} (hn : n ≤ 255) :
    formatB op (BitVec.ofNat 8 n) = BitVec.ofNat 32 (2 ^ 24 * op.toNat + n) := by
  rw [formatB_eq_ofNat, BitVec.toNat_ofNat, Nat.mod_eq_of_lt (Nat.lt_succ_of_le hn)]

theorem formatS_ofNat (op : Byte) {n : Nat} (hn : n ≤ 3) :
    formatS op (BitVec.ofNat 2 n) = BitVec.ofNat 32 (2 ^ 24 * op.toNat + n * 2 ^ 16) := by
  rw [formatS_eq_ofNat, BitVec.toNat_ofNat, Nat.mod_eq_of_lt (Nat.lt_succ_of_le hn), Nat.mul_comm n]

theorem formatH_ofNat (op : Byte) (sel : BitVec 2) {n : Nat} (hn : n ≤ 65535) :
    formatH op sel (BitVec.ofNat 16 n) = BitVec.ofNat 32 (2 ^ 24 * op.toNat + 2 ^ 16 * sel.toNat + n) := by
  rw [formatH_eq_ofNat, BitVec.toNat_ofNat, Nat.mod_eq_of_lt (Nat.lt_succ_of_le hn)]

/-- A statement of one command assembles to its word when the operand is in range, and to nothing when it is not. -/
theorem assemble_of_one {a : Asm} {i : Instr} {n bound : Nat} {w : Word}
    (hexpand : expandAsm a = if decide (n ≤ bound) then some [i] else none) (hword : n ≤ bound → encode i = w) :
    assemble a = if n ≤ bound then some [w] else none := by
  by_cases hn : n ≤ bound <;> simp [assemble, hexpand, hn, hword]

/-- Settles O52: each statement stands for one command, whose word is its format's number. -/
theorem assemblerGivesTheTabledWords : Obligations.AssemblerGivesTheTabledWords := by
  refine ⟨by decide, fun n => ⟨fun sel => ?_, ?_, ?_, ?_⟩⟩
  · refine assemble_of_one (i := .setdim sel (BitVec.ofNat 16 n)) rfl fun hn => ?_
    cases sel <;> exact formatH_ofNat 0x02 _ hn
  · exact assemble_of_one (i := .data (BitVec.ofNat 8 n)) rfl (formatB_ofNat 0x04)
  · exact assemble_of_one (i := .rdckb (BitVec.ofNat 2 n)) rfl (formatS_ofNat 0x07)
  · exact assemble_of_one (i := .ldckb (BitVec.ofNat 8 n)) rfl (formatB_ofNat 0x08)

end Sys2Proof.Machine
end

section
/-! A DATA below the declared length is counted exactly (40_crc_core.md R79), and a table look-up is eight steps (R74). -/

namespace Sys2Proof.Machine

open Sys2Proof

/-- Settles O36: the byte is absorbed, and the registers after it track the payload with that byte appended. -/
theorem countNeverWraps : Obligations.CountNeverWraps := by
  refine ⟨fun r => ⟨rfl, r.expect_le⟩, fun s p b h hp hne => ?_⟩
  have hc : s.regs.complete = false := s.regs.not_complete_iff.mpr hne
  obtain ⟨hcount, hle, -⟩ := h.run hp
  obtain ⟨hcount', hle', -⟩ := (h.absorbed hp hc b).run hp
  exact ⟨_, exec_of_effect (.absorbed b rfl hp hc),
    Regs.count_succ_toNat (Nat.lt_of_le_of_ne (hcount ▸ hle) hne), hcount' ▸ hle'⟩

/-- Settles O40, by `absorbTable_eq_absorbSerial`. -/
theorem tableDrivenEqualsBitSerial : Obligations.TableDrivenEqualsBitSerial := absorbTable_eq_absorbSerial

end Sys2Proof.Machine
end

section
/-! What is xored into the register after `n` steps may be xored in before them, `n` bits higher. So bits fed one at a
time (40_crc_core.md R69) and the bytes of a little-endian word (R80) act as the whole value fed at once. -/

namespace Sys2Proof.Machine

open Sys2Proof

/-- The low `n` bits of a word, the others zero. -/
def lowBits (n : Nat) (v : Word) : Word := (v.setWidth n).setWidth 32

@[simp] theorem lowBits_zero (v : Word) : lowBits 0 v = 0 := by
  simp [lowBits, BitVec.eq_nil (v.setWidth 0)]

@[simp] theorem lowBits_all (v : Word) : lowBits 32 v = v := by simp [lowBits]

/-- The low `n + k` bits are the low `n` bits and the field of `k` bits above them. -/
theorem lowBits_add (n k : Nat) (v : Word) :
    lowBits (n + k) v = lowBits n v ^^^ ((v.extractLsb' n k).setWidth 32) <<< n := by
  ext i hi
  by_cases h : i < n
  · simp [lowBits, h, hi, Nat.lt_add_right k h]
  · have hfield : i < n + k ↔ i - n < k := by omega
    have hbit : n + (i - n) = i := by omega
    simp [lowBits, h, hi, hfield, hbit]

/-- The steps before a field's turn only shift it down. -/
theorem bitsteps_shiftLeft_field (p : CrcParams) {n k : Nat} (hk : n + k ≤ 32) (x : BitVec k) :
    bitsteps p n (x.setWidth 32 <<< n) = x.setWidth 32 := by
  rw [bitsteps_of_low_bits_clear p n _ (by intro j hj; simp [hj])]
  ext i hi
  have hbound : x.getLsbD i = true → n + i < 32 := fun h => by
    have := BitVec.lt_of_getLsbD h
    omega
  simpa [hi] using hbound

theorem bitsteps_xor_field (p : CrcParams) {n k : Nat} (hk : n + k ≤ 32) (c v : Word) :
    bitsteps p n (c ^^^ lowBits n v) ^^^ (v.extractLsb' n k).setWidth 32 = bitsteps p n (c ^^^ lowBits (n + k) v) := by
  rw [lowBits_add, ← BitVec.xor_assoc, bitsteps_xor p n (c ^^^ lowBits n v), bitsteps_shiftLeft_field p hk]

theorem bit_eq_extractLsb' (b : Byte) (n : Nat) (hn : n < 32) :
    (if b.getLsbD n then 1 else 0 : Word) = ((b.setWidth 32).extractLsb' n 1).setWidth 32 := by
  ext i hi
  cases i with
  | zero => cases h : b.getLsbD n <;> simp [h, hn]
  | succ i => cases b.getLsbD n <;> simp

/-- The first `n` bits of a byte, fed one at a time. -/
theorem foldl_absorbBit_range (p : CrcParams) (b : Byte) (c : Word) {n : Nat} (hn : n ≤ 32) :
    (List.range n).foldl (absorbBit p b) c = bitsteps p n (c ^^^ lowBits n (b.setWidth 32)) := by
  induction n with
  | zero => simp
  | succ n ih =>
    rw [List.range_succ, List.foldl_append, ih (Nat.le_of_succ_le hn), List.foldl_cons, List.foldl_nil, absorbBit,
      bit_eq_extractLsb' b n hn, bitsteps_xor_field p hn, bitsteps_add p n 1]
    rfl

/-- Settles O42: after all eight bits the low bits fed are the byte. -/
theorem bitByBitFormEqualsAbsorb : Obligations.BitByBitFormEqualsAbsorb := by
  intro p c b
  have hbyte : lowBits 8 (b.setWidth 32) = b.setWidth 32 := by simp [lowBits]
  rw [absorbBits, foldl_absorbBit_range p b c (by decide), hbyte, absorbSerial]

/-- A word's first `n` bytes, absorbed in file order. -/
theorem absorbAll_leBytes (p : CrcParams) (c v : Word) {n : Nat} (hn : n ≤ 4) :
    absorbAll p c (leBytes n v) = bitsteps p (8 * n) (c ^^^ lowBits (8 * n) v) := by
  induction n with
  | zero => simp [leBytes]
  | succ n ih =>
    have hsnoc : leBytes (n + 1) v = leBytes n v ++ [v.extractLsb' (8 * n) 8] := by simp [leBytes, List.range_succ]
    rw [hsnoc, absorbAll_snoc, ih (Nat.le_of_succ_le hn), absorb_eq_absorbSerial, absorbSerial,
      bitsteps_xor_field p (by omega), ← bitsteps_add, Nat.mul_succ]

/-- Settles O46: the message's register cancels against that in its checksum, so the 32 steps start from `CRC_XOROUT`. -/
theorem messageWithItsChecksumHasFixedResidue : Obligations.MessageWithItsChecksumHasFixedResidue := by
  intro m
  have hcancel : ∀ c : Word, c ^^^ (c ^^^ Config.params.xorout) = Config.params.xorout := fun c => by
    rw [← BitVec.xor_assoc, BitVec.xor_self, BitVec.zero_xor]
  have hresidue : bitsteps Config.params 32 Config.params.xorout ^^^ Config.params.xorout = 0x2144DF1C#32 := by decide
  rw [crc32, absorbAll_append, absorbAll_leBytes _ _ _ (Nat.le_refl 4), lowBits_all, crc32, hcancel, hresidue]

end Sys2Proof.Machine
end

section
/-! R75: the checksum is affine in the message. -/

namespace Sys2Proof.Machine

open Sys2Proof

/-- The bytewise xor of two messages. -/
def xorBytes (m m' : List Byte) : List Byte := List.zipWith (fun x y => x ^^^ y) m m'

theorem xorBytes_replicate_zero (m : List Byte) : xorBytes m (List.replicate m.length 0) = m := by
  induction m with
  | nil => rfl
  | cons b m ih => exact congrArg₂ List.cons BitVec.xor_zero ih

theorem absorb_xor (p : CrcParams) (c c' : Word) (b b' : Byte) :
    absorb p (c ^^^ c') (b ^^^ b') = absorb p c b ^^^ absorb p c' b' := by
  have hswap : (c ^^^ c') ^^^ (b ^^^ b').setWidth 32 = (c ^^^ b.setWidth 32) ^^^ (c' ^^^ b'.setWidth 32) := by
    rw [BitVec.setWidth_xor]
    ac_rfl
  simp only [absorb_eq_absorbSerial, absorbSerial, hswap, bitsteps_xor]

theorem absorbAll_xor (p : CrcParams) {m m' : List Byte} (h : m.length = m'.length) (c c' : Word) :
    absorbAll p (c ^^^ c') (xorBytes m m') = absorbAll p c m ^^^ absorbAll p c' m' := by
  induction m generalizing m' c c' with
  | nil =>
    obtain rfl := List.length_eq_zero_iff.mp h.symm
    rfl
  | cons b m ih =>
    cases m' with
    | nil => cases h
    | cons b' m' =>
      calc absorbAll p (c ^^^ c') (xorBytes (b :: m) (b' :: m'))
          = absorbAll p (absorb p c b ^^^ absorb p c' b') (xorBytes m m') := by rw [← absorb_xor]; rfl
        _ = absorbAll p c (b :: m) ^^^ absorbAll p c' (b' :: m') := ih (Nat.succ.inj h) _ _

/-- Settles O43: xoring a third message, of zero bytes, changes nothing, and three times `CRC_INIT` is `CRC_INIT`. -/
theorem crcIsAffineInTheMessage : Obligations.CrcIsAffineInTheMessage := by
  refine ⟨bitstep_xor, fun p m m' h => ?_⟩
  have hthree : ∀ a : Word, a ^^^ a ^^^ a = a := fun a => by rw [BitVec.xor_self, BitVec.zero_xor]
  have hlen : (xorBytes m m').length = m.length := by simp [xorBytes, h]
  have hregister : absorbAll p p.init (xorBytes m m') =
      absorbAll p p.init m ^^^ absorbAll p p.init m' ^^^ absorbAll p p.init (List.replicate m.length 0) :=
    calc absorbAll p p.init (xorBytes m m')
        = absorbAll p (p.init ^^^ p.init ^^^ p.init) (xorBytes (xorBytes m m') (List.replicate m.length 0)) := by
          rw [hthree, ← hlen, xorBytes_replicate_zero]
      _ = _ := by rw [absorbAll_xor p (by simp [hlen]), absorbAll_xor p h]
  calc crc32 p (xorBytes m m')
      = absorbAll p p.init m ^^^ absorbAll p p.init m' ^^^ absorbAll p p.init (List.replicate m.length 0) ^^^
          (p.xorout ^^^ p.xorout ^^^ p.xorout) := by rw [crc32, hregister, hthree]
    _ = crc32 p m ^^^ crc32 p m' ^^^ crc32 p (List.replicate m.length 0) := by simp only [crc32]; ac_rfl

end Sys2Proof.Machine
end

section
/-! R76: when `CRC_POLYR[31] = 1` a step loses nothing, so different registers stay different. -/

namespace Sys2Proof.Machine

open Sys2Proof

/-- Bit 31 after a step is the bit that the step shifted out. -/
theorem bitstep_getLsbD_31 {p : CrcParams} (h : p.polyr.getLsbD 31 = true) (c : Word) :
    (bitstep p c).getLsbD 31 = c.getLsbD 0 := by
  cases hc : c.getLsbD 0 with
  | false => simp [bitstep_of_even hc]
  | true => simp [bitstep_of_odd hc, h]

/-- A word is its upper 31 bits and its bit 0. -/
theorem shiftLeft_ushiftRight_one_or_bit (c : Word) : (c >>> 1) <<< 1 ||| (if c.getLsbD 0 then 1 else 0) = c := by
  ext i hi
  cases i with
  | zero => cases hc : c.getLsbD 0 <;> simpa using hc.symm
  | succ i => cases c.getLsbD 0 <;> simp [Nat.add_comm 1 i, BitVec.getLsbD_eq_getElem hi]

/-- A bit put below a word that has bit 31 clear is shifted out again. -/
theorem shiftLeft_one_or_bit_ushiftRight {x : Word} (h : x.getLsbD 31 = false) (u : Bool) :
    (x <<< 1 ||| (if u then 1 else 0)) >>> 1 = x := by
  ext i hi
  by_cases htop : i = 31
  · subst htop
    simpa using h.symm
  · have : 1 + i < 32 := by omega
    cases u <;> simp [this]

theorem shiftLeft_one_or_bit_getLsbD_zero (x : Word) (u : Bool) :
    (x <<< 1 ||| (if u then 1 else 0)).getLsbD 0 = u := by
  cases u <;> simp

theorem bitstepInv_bitstep {p : CrcParams} (h : p.polyr.getLsbD 31 = true) (c : Word) :
    bitstepInv p (bitstep p c) = c := by
  have hback : bitstep p c ^^^ (if c.getLsbD 0 then p.polyr else 0) = c >>> 1 := by
    rw [bitstep, BitVec.xor_assoc, BitVec.xor_self, BitVec.xor_zero]
  rw [bitstepInv, bitstep_getLsbD_31 h, hback, shiftLeft_ushiftRight_one_or_bit]

theorem bitstep_bitstepInv {p : CrcParams} (h : p.polyr.getLsbD 31 = true) (r : Word) :
    bitstep p (bitstepInv p r) = r := by
  have htop : (r ^^^ (if r.getLsbD 31 then p.polyr else 0)).getLsbD 31 = false := by
    rw [BitVec.getLsbD_xor]
    cases r.getLsbD 31 <;> simp [h]
  rw [bitstep, bitstepInv, shiftLeft_one_or_bit_getLsbD_zero, shiftLeft_one_or_bit_ushiftRight htop,
    BitVec.xor_assoc, BitVec.xor_self, BitVec.xor_zero]

theorem bitsteps_injective {p : CrcParams} (h : p.polyr.getLsbD 31 = true) (n : Nat) :
    Function.Injective (bitsteps p n) := by
  induction n with
  | zero => exact Function.injective_id
  | succ n ih => exact ih.comp (Function.LeftInverse.injective (bitstepInv_bitstep h))

theorem absorb_injective {p : CrcParams} (h : p.polyr.getLsbD 31 = true) (b : Byte) :
    Function.Injective fun c => absorb p c b := by
  intro c c' heq
  simp only [absorb_eq_absorbSerial, absorbSerial] at heq
  exact (BitVec.xor_left_inj _).mp (bitsteps_injective h 8 heq)

theorem absorbAll_injective {p : CrcParams} (h : p.polyr.getLsbD 31 = true) (m : List Byte) :
    Function.Injective fun c => absorbAll p c m := by
  induction m with
  | nil => exact Function.injective_id
  | cons b m ih => exact ih.comp (absorb_injective h b)

/-- Settles O44, by the two round trips and `absorb_injective`. -/
theorem bitstepIsABijection : Obligations.BitstepIsABijection :=
  ⟨by decide, fun _ h => ⟨bitstepInv_bitstep h, bitstep_bitstepInv h, fun b _ _ heq => absorb_injective h b heq⟩⟩

/-- Settles O45: the same checksum would mean the same register before the payload, but `Z4` changed it. -/
theorem zeroPrefixChangesEveryChecksum : Obligations.ZeroPrefixChangesEveryChecksum := by
  have hz4 : absorbAll Config.params Config.params.init Config.zeroPrefix = 0xDEBB20E3#32 := by decide
  refine ⟨hz4, fun payload heq => ?_⟩
  rw [frameChecksum, crc32, crc32, absorbAll_append, hz4] at heq
  have hsame : 0xDEBB20E3#32 = Config.params.init :=
    absorbAll_injective (by decide) payload ((BitVec.xor_left_inj _).mp heq)
  exact absurd hsame (by decide)

end Sys2Proof.Machine
end

section
/-! R80's last corner case: under the default parameters a zero byte moves every nonzero register. -/

namespace Sys2Proof.Machine

open Sys2Proof

/-- `x` xored with itself shifted down by one, two and three bytes. -/
def byteShifts (x : Word) : Word := x ^^^ x >>> 8 ^^^ x >>> 16 ^^^ x >>> 24

/-- A register equal to `x` xored with its own upper three bytes shifted down, solved for the register. -/
theorem eq_byteShifts {c x : Word} (h : c = x ^^^ c >>> 8) : c = byteShifts x := by
  have hlast : c >>> 32 = 0#32 := BitVec.ushiftRight_eq_zero (Nat.le_refl 32)
  calc c = x ^^^ (x ^^^ (x ^^^ (x ^^^ c >>> 8) >>> 8) >>> 8) >>> 8 := by rw [← h, ← h, ← h, ← h]
    _ = byteShifts x ^^^ c >>> 32 := by
      simp only [BitVec.ushiftRight_xor_distrib, ← BitVec.shiftRight_add, byteShifts]
      ac_rfl
    _ = byteShifts x := by rw [hlast, BitVec.xor_zero]

/-- A register that a zero byte leaves unchanged is determined by its low byte. -/
theorem eq_byteShifts_of_absorb_zero {p : CrcParams} {c : Word} (h : absorb p c 0 = c) :
    c = byteShifts (tableEntry p (c.setWidth 8)) := by
  apply eq_byteShifts
  rw [absorb_eq_absorbSerial, absorbSerial, bitsteps_eight_eq] at h
  simpa using h.symm

/-- Only the low byte zero determines a register that has this low byte: R80's rank 32, with the upper bytes solved for. -/
theorem lowByte_eq_zero_of_byteShifts : ∀ b : Byte,
    (byteShifts (tableEntry Config.params b)).setWidth 8 = b → b = 0 := by
  decide +kernel

/-- Settles O47: the low byte of an unchanged register is zero, and with it the register. -/
theorem zeroByteMovesEveryNonzeroRegister : Obligations.ZeroByteMovesEveryNonzeroRegister := by
  intro c
  constructor
  · intro h
    have hc := eq_byteShifts_of_absorb_zero h
    have hlow : c.setWidth 8 = 0 := lowByte_eq_zero_of_byteShifts _ (congrArg (BitVec.setWidth 8) hc.symm)
    rw [hc, hlow]
    decide
  · rintro rfl
    decide

end Sys2Proof.Machine
end

section
/-! The configuration commands, CLR, SETDIM and LDCKB (41_config_commands.md): their words by format, and what `exec` answers by
`exec_of_effect`, one effect for each condition of the pseudocode. -/

namespace Sys2Proof.Machine

open Sys2Proof

/-- A field at bit 0 is its value. -/
theorem place_at_zero {k : Nat} (x : BitVec k) : place x 0 = x.setWidth 32 := BitVec.shiftLeft_zero _

/-- A word of format B is its opcode's word with `imm8` in the low byte (R56). -/
theorem formatB_eq_or (op x : Byte) : formatB op x = formatN op ||| x.setWidth 32 := by
  rw [formatB, formatN, place_at_zero]

/-- A word of format H is its opcode's word with `sel` at bit 16 and `imm16` in the low half (R57). -/
theorem formatH_eq_or (op : Byte) (sel : BitVec 2) (v : Half) :
    formatH op sel v = formatN op ||| (sel.setWidth 32 <<< 16) ||| v.setWidth 32 := by
  rw [formatH, place_at_zero]
  rfl

/-! ### CLR (R82) -/

/-- A word with CLR's opcode and any other bit set is illegal. -/
theorem decode_error_of_clr_opcode {cw : Word} (hop : fieldOpcode cw = 0x01) (hne : cw ≠ encode .clr) :
    ∃ e, decode cw = .error e := by
  have hz : reservedZeroN cw = false := Bool.eq_false_iff.mpr fun hz => hne (formatN_of_fields hop hz).symm
  have hd : decode cw = acceptIf (reservedZeroN cw) cw .clr := by simp [decode, hop]
  rw [hd]
  exact acceptIf_error_iff.mpr hz

/-- No other command leaves FAULT, and none leaves DONE but by a fault. -/
theorem CommandEffect.phase_of_not_clr {i : Instr} {r r' : Regs} {rsp : Word} (he : CommandEffect i r r' rsp)
    (hi : i ≠ .clr) :
    (r.phase = .fault → r'.phase = .fault) ∧ (r.phase = .done → r'.phase = .done ∨ r'.phase = .fault) := by
  rcases he.phase_cases with hk | ⟨-, hp, -⟩ | ⟨-, hp, -⟩ | ⟨-, hf, -⟩ | ⟨hclr, -⟩
  · exact ⟨hk.trans, fun hp => .inl (hk.trans hp)⟩
  · simp [hp]
  · simp [hp]
  · simp [hf]
  · exact absurd hclr hi

/-- Settles O1: the effect `cleared` gives the next state, and the round trip of the encoding gives the word. -/
theorem clrRestoresResetState : Obligations.ClrRestoresResetState := by
  refine ⟨rfl, fun s => exec_of_effect (.cleared rfl), fun cw => decode_error_of_clr_opcode,
    fun cw hd => (encode_of_decode hd).symm, ?_⟩
  intro i s t hi hx
  obtain ⟨r, rsp, rfl, he⟩ := effect_of_exec hx
  exact he.phase_of_not_clr hi

/-! ### SETDIM (R83) -/

/-- Settles O2: the effects `loadedDim`, `misplaced` and `ignored`, one for each condition on the phase. -/
theorem setdimLoadsDeclaredDimension : Obligations.SetdimLoadsDeclaredDimension := by
  intro sel v s
  refine ⟨?word, fun hp => ?idle, fun hp => ?misplaced, fun hp => exec_of_effect (.ignored hp (by simp) (by simp))⟩
  case word => cases sel <;> exact formatH_eq_or 0x02 _ v
  case idle => cases sel <;> exact exec_of_effect (.loadedDim _ v rfl hp)
  case misplaced =>
    rcases hp with hp | hp <;> exact exec_of_effect (.misplaced (by simp [hp]) (by simp [Misplaced, hp]))

/-! ### LDCKB (R84) -/

/-- Settles O3: the effects `loadedByte`, `misplaced` and `ignored`; the bits of `STORED` are those of `setByte`. -/
theorem ldckbLoadsNextStoredByte : Obligations.LdckbLoadsNextStoredByte := by
  intro x s
  refine ⟨formatB_eq_or 0x08 x, fun hp hn => ?_, fun hp hn => exec_of_effect (.misplaced hp (Fin.ext hn)),
    fun hp => exec_of_effect (.ignored hp (by simp) (by simp))⟩
  exact ⟨setByte s.regs.stored s.regs.nld.val x, s.regs.nld + 1, Fin.val_add_one_of_lt hn,
    fun k hk => setByte_getLsbD _ _ x hk, exec_of_effect (.loadedByte x rfl hp (Fin.ne_of_lt hn))⟩

end Sys2Proof.Machine
end

section
/-! The streaming commands, START, DATA and FINISH (42_stream_commands.md): what `exec` answers by `exec_of_effect`, one effect
for each condition of the pseudocode. -/

namespace Sys2Proof.Machine

open Sys2Proof

theorem phase_ne_of_eq_or {x p q a : Phase} (hx : x = p ∨ x = q) (hp : p ≠ a) (hq : q ≠ a) : x ≠ a := by
  rcases hx with rfl | rfl
  · exact hp
  · exact hq

/-- Settles O4: the effects `started`, `misplaced` and `ignored`. -/
theorem startAbsorbsZeroPrefix : Obligations.StartAbsorbsZeroPrefix := by
  refine ⟨rfl, fun s => ⟨fun hp => exec_of_effect (.started rfl hp), fun hp => ?misplaced,
    fun hp => exec_of_effect (.ignored hp (by simp) (by simp))⟩⟩
  case misplaced =>
    exact exec_of_misplaced (phase_ne_of_eq_or hp (by simp) (by simp)) (phase_ne_of_eq_or hp (by simp) (by simp))

/-- Settles O5: the effects `absorbed`, `surplus`, `misplaced` and `ignored`. -/
theorem dataAbsorbsOnePayloadByte : Obligations.DataAbsorbsOnePayloadByte := by
  intro x s
  refine ⟨formatB_eq_or 0x04 x,
    fun hp hc => exec_of_effect (.absorbed x rfl hp (s.regs.not_complete_iff.mpr hc)),
    fun hp hc => exec_of_effect (.surplus x rfl hp (s.regs.complete_iff.mpr hc)), fun hp => ?misplaced,
    fun hp => exec_of_effect (.ignored hp (by simp) (by simp))⟩
  case misplaced =>
    exact exec_of_misplaced (phase_ne_of_eq_or hp (by simp) (by simp)) (phase_ne_of_eq_or hp (by simp) (by simp))

/-- Settles O6: the effects `finished`, `short`, `misplaced` and `ignored`. -/
theorem finishProducesChecksumOfCompletePayload : Obligations.FinishProducesChecksumOfCompletePayload := by
  refine ⟨rfl, fun s => ⟨fun hp hc => exec_of_effect (.finished rfl hp (s.regs.complete_iff.mpr hc)),
    fun hp hc => exec_of_effect (.short rfl hp (s.regs.not_complete_iff.mpr hc)), fun hp => ?misplaced,
    fun hp => exec_of_effect (.ignored hp (by simp) (by simp))⟩⟩
  case misplaced =>
    exact exec_of_misplaced (phase_ne_of_eq_or hp (by simp) (by simp)) (phase_ne_of_eq_or hp (by simp) (by simp))

end Sys2Proof.Machine
end

section
/-! R126: a frame sent by the protocol. What the commands between START and FINISH do to the registers is a relation that
composes along the command list, so it is proved of one command and carried to the list by induction. -/

namespace Sys2Proof.Machine

open Sys2Proof

theorem payloadBytes_append (is is' : List Instr) : payloadBytes (is ++ is') = payloadBytes is ++ payloadBytes is' :=
  List.filterMap_append

theorem storedBytes_append (is is' : List Instr) : storedBytes (is ++ is') = storedBytes is ++ storedBytes is' :=
  List.filterMap_append

theorem issue_cons (i : Instr) (is : List Instr) (s : State) : issue (i :: is) s = andThen (exec i s) (issue is) := by
  rw [← performWord_of_decode (decode_encode i)]
  rfl

/-- A list of commands leaves the rest of the stream alone and adds one response for each. -/
theorem issue_ports {is : List Instr} {s t : State} (h : issue is s = .next t) :
    t.input = s.input ∧ t.responses.length = s.responses.length + is.length := by
  obtain ⟨r, rsps, hlen, hrun⟩ := presentAll_ports (is.map encode) s.regs
  obtain rfl := Host.Outcome.next.inj (h.symm.trans (hrun s.input s.responses))
  exact ⟨rfl, by simp [hlen]⟩

/-- What the commands of R126 between START and FINISH do to the registers: the DATA bytes are absorbed and counted, the LDCKB
bytes are counted, and no other register but `STORED` changes. -/
structure FrameBodyEffect (body : List Instr) (r r' : Regs) : Prop where
  crc : r'.crc = absorbAll Config.params r.crc (payloadBytes body)
  count : r'.count.toNat = r.count.toNat + (payloadBytes body).length
  nld : r'.nld.val = r.nld.val + (storedBytes body).length
  frame : r' = { r with crc := r'.crc, count := r'.count, stored := r'.stored, nld := r'.nld }

namespace FrameBodyEffect

theorem nil (r : Regs) : FrameBodyEffect [] r r := ⟨rfl, rfl, rfl, rfl⟩

theorem append {body body' : List Instr} {r r' r'' : Regs} (h : FrameBodyEffect body r r')
    (h' : FrameBodyEffect body' r' r'') : FrameBodyEffect (body ++ body') r r'' where
  crc := by rw [h'.crc, h.crc, payloadBytes_append, absorbAll_append]
  count := by rw [h'.count, h.count, payloadBytes_append, List.length_append, Nat.add_assoc]
  nld := by rw [h'.nld, h.nld, storedBytes_append, List.length_append, Nat.add_assoc]
  frame := h'.frame.trans (by rw [h.frame])

theorem phase_eq {body : List Instr} {r r' : Regs} (h : FrameBodyEffect body r r') : r'.phase = r.phase := by
  rw [h.frame]

theorem expect_eq {body : List Instr} {r r' : Regs} (h : FrameBodyEffect body r r') : r'.expect = r.expect := by
  rw [h.frame]
  rfl

theorem unchanged {body : List Instr} {r r' : Regs} (h : FrameBodyEffect body r r') :
    r'.w = r.w ∧ r'.h = r.h ∧ r'.d = r.d ∧ r'.b = r.b ∧ r'.matched = r.matched ∧ r'.errcode = r.errcode :=
  ⟨by rw [h.frame], by rw [h.frame], by rw [h.frame], by rw [h.frame], by rw [h.frame], by rw [h.frame]⟩

end FrameBodyEffect

/-- One command of a frame's body, when the declared length and `STORED` have room for its byte. -/
theorem command_of_frameBody {i : Instr} {r : Regs} (hi : isFrameBody i = true) (hp : r.phase = .run)
    (hcount : r.count.toNat + (payloadBytes [i]).length ≤ r.expect)
    (hnld : r.nld.val + (storedBytes [i]).length ≤ 4) :
    ∃ r' rsp, CommandEffect i r r' rsp ∧ FrameBodyEffect [i] r r' := by
  cases i with
  | data x =>
    have hlt : r.count.toNat < r.expect := hcount
    exact ⟨_, _, .absorbed x rfl hp (r.not_complete_iff.mpr hlt.ne), rfl, Regs.count_succ_toNat hlt, rfl, rfl⟩
  | ldckb x =>
    have hlt : r.nld < 4 := hnld
    exact ⟨_, _, .loadedByte x rfl (by simp [hp]) hlt.ne, rfl, rfl, Fin.val_add_one_of_lt hlt, rfl⟩
  | rdst => exact ⟨_, _, .readStatus rfl, rfl, rfl, rfl, rfl⟩
  | clr | setdim | start | finish | rdck | rdckb | check => cases hi

/-- A frame's body runs in RUN to its end when there is room for all of its bytes. -/
theorem issue_frameBody {body : List Instr} {s : State} (hbody : ∀ i ∈ body, isFrameBody i = true)
    (hp : s.regs.phase = .run) (hcount : s.regs.count.toNat + (payloadBytes body).length ≤ s.regs.expect)
    (hnld : s.regs.nld.val + (storedBytes body).length ≤ 4) :
    ∃ t, issue body s = .next t ∧ FrameBodyEffect body s.regs t.regs := by
  induction body generalizing s with
  | nil => exact ⟨s, rfl, .nil _⟩
  | cons i body ih =>
    obtain ⟨hi, hbody⟩ := List.forall_mem_cons.mp hbody
    rw [← List.singleton_append, payloadBytes_append, List.length_append] at hcount
    rw [← List.singleton_append, storedBytes_append, List.length_append] at hnld
    obtain ⟨r, rsp, hexec, hfirst⟩ := command_of_frameBody hi hp (by omega) (by omega)
    obtain ⟨t, hrun, hrest⟩ := ih (s := s.answer r rsp) hbody (hfirst.phase_eq.trans hp)
      (by rw [State.answer_regs, hfirst.count, hfirst.expect_eq]; omega)
      (by rw [State.answer_regs, hfirst.nld]; omega)
    exact ⟨t, by rw [issue_cons, exec_of_effect hexec, andThen_next, hrun], hfirst.append hrest⟩

/-- Settles O48: START enters RUN, the body absorbs exactly the declared payload (`issue_frameBody`), so FINISH finds the count
complete and gives `RESULT`. -/
theorem frameProtocolComputesChecksum : Obligations.FrameProtocolComputesChecksum := by
  intro s body hp hbody hlen hroom
  obtain ⟨t, hrun, heff⟩ := issue_frameBody (s := s.answer s.regs.started 0) hbody rfl
    (show 0 + (payloadBytes body).length ≤ s.regs.expect by omega) hroom
  have hcomplete : t.regs.complete = true := by
    rw [Regs.complete_iff, heff.count, heff.expect_eq]
    exact (Nat.zero_add _).trans hlen
  have hall : issue ([.start] ++ body ++ [.finish]) s = .next (t.answer t.regs.finished 0) := by
    have hstart : exec .start s = .next (s.answer s.regs.started 0) := exec_of_effect (.started rfl hp)
    have hfinish : exec .finish t = .next (t.answer t.regs.finished 0) :=
      exec_of_effect (.finished rfl heff.phase_eq hcomplete)
    rw [issue_append, List.singleton_append, issue_cons, hstart, andThen_next, hrun, andThen_next, issue_cons, hfinish]
    rfl
  obtain ⟨hinput, hresponses⟩ := issue_ports hall
  obtain ⟨hw, hh, hd, hb, hmatched, herrcode⟩ := heff.unchanged
  refine ⟨_, hall, rfl, ?result, hw, hh, hd, hb, hmatched, herrcode, heff.nld, hinput, ?responses⟩
  case result =>
    rw [State.answer_regs, Regs.finished_result, heff.crc, State.answer_regs, Regs.started_crc, ← absorbAll_append]
    rfl
  case responses =>
    rw [hresponses, List.length_append, List.length_append, List.length_singleton, List.length_singleton]
    omega

end Sys2Proof.Machine
end

section
/-! The result commands RDCK, RDCKB, CHECK and RDST (43_result_commands.md): what `exec` answers by `exec_of_effect`, one effect
for each condition of the pseudocode, and the status word as the sum of its fields (10_state.md R24). -/

namespace Sys2Proof.Machine

open Sys2Proof

/-- A word of format S is its opcode's word with `sel` at bit 16 (R55). -/
theorem formatS_eq_or (op : Byte) (sel : BitVec 2) : formatS op sel = formatN op ||| (sel.setWidth 32 <<< 16) := rfl

/-- A command that is misplaced outside DONE raises SEQUENCE in IDLE and in RUN. -/
theorem exec_of_misplaced_before_done {i : Instr} {s : State} (hp : s.regs.phase = .idle ∨ s.regs.phase = .run)
    (hm : s.regs.phase ≠ .done → Misplaced i s.regs) : exec i s = .next (s.answer (s.regs.faulted .sequence) 0) :=
  exec_of_misplaced (phase_ne_of_eq_or hp (by simp) (by simp)) (hm (phase_ne_of_eq_or hp (by simp) (by simp)))

/-- Settles O7: the effects `readResult`, `misplaced` and `ignored`. -/
theorem rdckRespondsResultInDone : Obligations.RdckRespondsResultInDone :=
  ⟨rfl, fun _ => ⟨fun hp => exec_of_effect (.readResult rfl hp), fun hp => exec_of_misplaced_before_done hp id,
    fun hp => exec_of_effect (.ignored hp (by simp) (by simp))⟩⟩

/-- Settles O8: the effects `readByte`, `misplaced` and `ignored`; the byte's value is `byteOf_setWidth_toNat`. -/
theorem rdckbRespondsResultByteInDone : Obligations.RdckbRespondsResultByteInDone := fun sel _ =>
  ⟨formatS_eq_or 0x07 sel,
    fun hp => ⟨_, byteOf_setWidth_toNat _ _, exec_of_effect (.readByte sel rfl hp)⟩,
    fun hp => exec_of_misplaced_before_done hp id,
    fun hp => exec_of_effect (.ignored hp (by simp) (by simp))⟩

/-- Settles O9: the effects `confirmed`, `different`, `misplaced` (for its two reasons) and `ignored`. -/
theorem checkComparesResultWithStored : Obligations.CheckComparesResultWithStored := by
  refine ⟨rfl, fun s => ⟨fun hp hn he => exec_of_effect (.confirmed rfl hp (Fin.ext hn) he),
    fun hp hn he => exec_of_effect (.different rfl hp (Fin.ext hn) he), fun hp hn => ?incomplete,
    fun hp => exec_of_misplaced_before_done hp .inl, fun hp => exec_of_effect (.ignored hp (by simp) (by simp))⟩⟩
  case incomplete => exact exec_of_misplaced (by simp [hp]) (.inr (Fin.ne_of_lt hn))

/-- The value of two fields side by side. -/
theorem append_toNat_eq_add {m n : Nat} (x : BitVec m) (y : BitVec n) :
    (x ++ y).toNat = 2 ^ n * x.toNat + y.toNat := by
  rw [BitVec.toNat_append, Nat.shiftLeft_eq, Nat.mul_comm, Nat.two_pow_add_eq_or_of_lt y.isLt]

@[simp] theorem nldCode_toNat (n : Fin 5) : (nldCode n).toNat = n.val :=
  Nat.mod_eq_of_lt (n.isLt.trans (by decide))

/-- The fields of STATUS at bits 0, 2, 4 and 8, the reserved bits zero (R24). -/
theorem Regs.status_toNat (r : Regs) :
    r.status.toNat =
      r.phase.code.toNat + 4 * (if r.matched then 1 else 0) + 16 * r.errcode.code.toNat + 256 * r.nld.val := by
  rw [Regs.status, BitVec.toNat_setWidth_of_le (by decide)]
  simp only [append_toNat_eq_add, nldCode_toNat, BitVec.toNat_ofBool, Bool.toNat, BitVec.toNat_ofNat, cond_eq_ite]
  omega

/-- Settles O10: the effect `readStatus` in every phase, and each code as the number that R20 or R104 gives it. -/
theorem rdstRespondsStatusInEveryPhase : Obligations.RdstRespondsStatusInEveryPhase := by
  refine ⟨rfl, fun s => ⟨s.regs.status, ?value, exec_of_effect (.readStatus rfl)⟩, Regs.reset_status⟩
  case value =>
    rw [Regs.status_toNat]
    congr 3
    · cases s.regs.phase <;> rfl
    · cases s.regs.errcode <;> rfl

end Sys2Proof.Machine
end

section
/-! The command lists of the host's flows (44_host_flows.md R92 to R94). What a list of commands does to the registers and what it
responds is one relation, composed from the effects of its commands; `issue` answers with it. -/

namespace Sys2Proof.Machine

open Sys2Proof

/-! ### Lists of commands -/

/-- What a list of commands can do: the registers it leaves and the responses it gives, the oldest first. -/
inductive CommandsEffect : List Instr → Regs → Regs → List Word → Prop where
  | nil (r : Regs) : CommandsEffect [] r r []
  | cons {i : Instr} {is : List Instr} {r r' r'' : Regs} {rsp : Word} {rsps : List Word}
      (head : CommandEffect i r r' rsp) (tail : CommandsEffect is r' r'' rsps) :
      CommandsEffect (i :: is) r r'' (rsp :: rsps)

/-- The state after a list of commands: new registers, its responses after those given before. -/
def State.answers (s : State) (r : Regs) (rsps : List Word) : State :=
  { s with regs := r, responses := s.responses ++ rsps }

@[simp] theorem State.answers_regs (s : State) (r : Regs) (rsps : List Word) : (s.answers r rsps).regs = r := rfl
@[simp] theorem State.answers_input (s : State) (r : Regs) (rsps : List Word) : (s.answers r rsps).input = s.input := rfl

@[simp] theorem lastResponse_answers_snoc (s : State) (r : Regs) (rsps : List Word) (rsp : Word) :
    lastResponse (s.answers r (rsps ++ [rsp])) = rsp := by
  simp [lastResponse, State.answers, ← List.append_assoc]

theorem lastResponses_answers {n : Nat} (s : State) (r : Regs) {rsps : List Word} (hn : rsps.length = n) :
    lastResponses n (s.answers r rsps) = rsps := by
  simp [lastResponses, State.answers, ← hn]

namespace CommandsEffect

theorem single {i : Instr} {r r' : Regs} {rsp : Word} (h : CommandEffect i r r' rsp) : CommandsEffect [i] r r' [rsp] :=
  .cons h (.nil r')

theorem append {is is' : List Instr} {r r' r'' : Regs} {rsps rsps' : List Word} (h : CommandsEffect is r r' rsps)
    (h' : CommandsEffect is' r' r'' rsps') : CommandsEffect (is ++ is') r r'' (rsps ++ rsps') := by
  induction h with
  | nil => exact h'
  | cons head _ ih => exact .cons head (ih h')

/-- In FAULT every command but CLR and RDST is ignored (R113). -/
theorem ignored {is : List Instr} {r : Regs} (hp : r.phase = .fault) (his : ∀ i ∈ is, i ≠ .clr ∧ i ≠ .rdst) :
    CommandsEffect is r r (List.replicate is.length 0) := by
  induction is with
  | nil => exact .nil r
  | cons i is ih =>
    obtain ⟨⟨hclr, hrdst⟩, his⟩ := List.forall_mem_cons.mp his
    exact .cons (.ignored hp hclr hrdst) (ih his)

end CommandsEffect

/-- A list of commands has the effect that its commands' effects compose to. -/
theorem issue_of_effects {is : List Instr} {s : State} {r : Regs} {rsps : List Word}
    (h : CommandsEffect is s.regs r rsps) : issue is s = .next (s.answers r rsps) := by
  generalize hr : s.regs = r₀ at h
  induction h generalizing s with
  | nil => subst hr; simp [issue, State.answers]
  | cons head _ ih =>
    subst hr
    rw [issue_cons, exec_of_effect head, andThen_next, ih rfl]
    simp [State.answers]

/-! ### SETDIMS (R92) -/

/-- The registers with all four dimensions written. -/
def Regs.withDims (r : Regs) (w h d b : Half) : Regs := { r with w := w, h := h, d := d, b := b }

theorem setdims_effect {r : Regs} (w h d b : Half) (hp : r.phase = .idle) :
    CommandsEffect (setdims w h d b) r (r.withDims w h d b) [0, 0, 0, 0] :=
  .cons (.loadedDim .w w rfl hp) (.cons (.loadedDim .h h rfl hp) (.cons (.loadedDim .d d rfl hp)
    (.single (.loadedDim .b b rfl hp))))

/-- Settles O49, by `setdims_effect`. -/
theorem setdimsLoadsAllDimensions : Obligations.SetdimsLoadsAllDimensions := fun w h d b _ hp =>
  ⟨issue_of_effects (setdims_effect w h d b hp), rfl, rfl⟩

/-! ### PAYLOAD (R93) -/

/-- The registers after payload bytes for which there is room: absorbed in order, and counted. -/
def Regs.fed (r : Regs) (bs : List Byte) : Regs :=
  { r with crc := absorbAll Config.params r.crc bs, count := BitVec.ofNat 64 (r.count.toNat + bs.length) }

@[simp] theorem Regs.fed_nil (r : Regs) : r.fed [] = r := by simp [Regs.fed]

/-- Below the declared length no count wraps (log entry 7). -/
theorem Regs.fed_count_toNat {r : Regs} {bs : List Byte} (h : r.count.toNat + bs.length ≤ r.expect) :
    (r.fed bs).count.toNat = r.count.toNat + bs.length := by
  have := r.expect_le
  exact Nat.mod_eq_of_lt (by omega)

theorem Regs.fed_cons {r : Regs} (b : Byte) (bs : List Byte) (h : r.count.toNat < r.expect) :
    r.fed (b :: bs) = (r.absorbed b).fed bs := by
  simp only [Regs.fed, Regs.absorbed, Regs.count_succ_toNat h, List.length_cons, absorbAll_cons, Nat.add_right_comm,
    ← Nat.add_assoc]

theorem payload_effect {bs : List Byte} {r : Regs} (hp : r.phase = .run)
    (hroom : r.count.toNat + bs.length ≤ r.expect) :
    CommandsEffect (payloadCommands bs) r (r.fed bs) (List.replicate bs.length 0) := by
  induction bs generalizing r with
  | nil => exact r.fed_nil.symm ▸ .nil r
  | cons b bs ih =>
    rw [List.length_cons] at hroom
    have hlt : r.count.toNat < r.expect := by omega
    rw [Regs.fed_cons b bs hlt]
    refine .cons (.absorbed b rfl hp (r.not_complete_iff.mpr hlt.ne)) (ih hp ?_)
    rw [Regs.absorbed_count, Regs.count_succ_toNat hlt, Regs.absorbed_expect]
    omega

/-- Settles O50, by `payload_effect`. -/
theorem payloadFeedsTheWorkingRegister : Obligations.PayloadFeedsTheWorkingRegister := fun _ _ hp hroom =>
  issue_of_effects (payload_effect hp hroom)

/-! ### LDCK (R94) -/

/-- The registers with the whole declared checksum loaded. -/
def Regs.withStored (r : Regs) (v : Word) : Regs := { r with stored := v, nld := 4 }

/-- A word is its four bytes. -/
theorem word_eq_of_bytes {v v' : Word} (h : ∀ i < 4, byteOf v i = byteOf v' i) : v = v' := by
  ext k hk
  have hbit := congrArg (·.getLsbD (k % 8)) (h (k / 8) (by omega))
  simpa [byteOf, Nat.mod_lt, Nat.div_add_mod, hk] using hbit

/-- Four bytes written in file order leave nothing of the old value (R84). -/
theorem setByte_all (u v : Word) :
    setByte (setByte (setByte (setByte u 0 (byteOf v 0)) 1 (byteOf v 1)) 2 (byteOf v 2)) 3 (byteOf v 3) = v := by
  apply word_eq_of_bytes
  intro i hi
  interval_cases i <;> simp [byteOf_setByte_same, byteOf_setByte_other]

theorem ldck_effect {r : Regs} (v : Word) (hp : r.phase ≠ .fault) (hn : r.nld = 0) :
    CommandsEffect (ldck v) r (r.withStored v) [0, 0, 0, 0] := by
  have hloaded : (((r.loadByte (byteOf v 0)).loadByte (byteOf v 1)).loadByte (byteOf v 2)).loadByte (byteOf v 3) =
      r.withStored v := by
    simp only [Regs.loadByte, hn, Regs.withStored]
    congr
    exact setByte_all r.stored v
  rw [← hloaded]
  exact .cons (.loadedByte _ rfl hp (by simp [hn])) (.cons (.loadedByte _ rfl hp (by simp [hn]))
    (.cons (.loadedByte _ rfl hp (by simp [hn])) (.single (.loadedByte _ rfl hp (by simp [hn])))))

/-- Settles O51, by `ldck_effect`. -/
theorem ldckLoadsTheWholeChecksum : Obligations.LdckLoadsTheWholeChecksum := fun v _ hp hn =>
  issue_of_effects (ldck_effect v hp hn)

end Sys2Proof.Machine
end

section
/-! The host's reading of a frame file (R96 to R98): a file of 32 bytes or more is a header followed by its payload, and parsing
gives both back, because the value of a little-endian field is the field (20_memory.md R32). -/

namespace Sys2Proof.Machine

open Sys2Proof

theorem leBytes_succ {k : Nat} (n : Nat) (v : BitVec k) :
    leBytes (n + 1) v = leBytes n v ++ [v.extractLsb' (8 * n) 8] := by
  simp [leBytes, List.range_succ]

theorem leValue_append (xs ys : List Byte) : leValue (xs ++ ys) = leValue xs + 256 ^ xs.length * leValue ys := by
  induction xs with
  | nil => simp [leValue]
  | cons x xs ih => rw [List.cons_append, leValue, ih, leValue, List.length_cons]; ring

/-- The value of a value's first `n` bytes. -/
theorem leValue_leBytes {k : Nat} (n : Nat) (v : BitVec k) : leValue (leBytes n v) = v.toNat % 256 ^ n := by
  induction n with
  | zero => simp [leBytes, leValue, Nat.mod_one]
  | succ n ih =>
    have hdigit : leValue [v.extractLsb' (8 * n) 8] = v.toNat / 256 ^ n % 256 := by
      simp [leValue, Nat.shiftRight_eq_div_pow, Nat.pow_mul]
    rw [leBytes_succ, leValue_append, ih, leBytes_length, hdigit, Nat.mod_pow_succ]

/-- A field read where all of its bytes stand is the field (R32). -/
theorem readField_eq {n o : Nat} {bytes : List Byte} {v : BitVec (8 * n)} (h : memRead bytes o n = leBytes n v) :
    readField (8 * n) bytes o n = v := by
  have hlt : v.toNat < 256 ^ n := by simpa [Nat.pow_mul] using v.isLt
  rw [readField, h, leValue_leBytes, Nat.mod_eq_of_lt hlt, BitVec.ofNat_toNat, BitVec.setWidth_eq]

/-- What stands in the header is read without what follows it. -/
theorem memRead_append {bytes rest : List Byte} {o n : Nat} (h : o + n ≤ bytes.length) :
    memRead (bytes ++ rest) o n = memRead bytes o n := by
  rw [memRead, List.drop_append_of_le_length (by omega), List.take_append_of_le_length (by simp; omega), memRead]

namespace FrameHeader

variable (f : FrameHeader) (payload : List Byte)

/-- A read within the header's 32 bytes. -/
theorem memRead_toBytes_append {o n : Nat} (h : o + n ≤ 32 := by decide) :
    memRead (f.toBytes ++ payload) o n = memRead f.toBytes o n :=
  memRead_append (by rwa [toBytes_length])

/-- Parsing the header's bytes gives the header back (R96). -/
@[simp] theorem ofBytes_toBytes_append : ofBytes (f.toBytes ++ payload) = f := by
  obtain ⟨magic, width, height, depth, bytesPerVoxel, frameNumber, timestampMicros, reserved, checksum⟩ := f
  rw [ofBytes, mk.injEq]
  exact ⟨readField_eq (n := 4) (memRead_toBytes_append _ _),
    readField_eq (n := 2) (memRead_toBytes_append _ _), readField_eq (n := 2) (memRead_toBytes_append _ _),
    readField_eq (n := 2) (memRead_toBytes_append _ _), readField_eq (n := 2) (memRead_toBytes_append _ _),
    readField_eq (n := 4) (memRead_toBytes_append _ _), readField_eq (n := 8) (memRead_toBytes_append _ _),
    readField_eq (n := 4) (memRead_toBytes_append _ _), readField_eq (n := 4) (memRead_toBytes_append _ _)⟩

@[simp] theorem payloadOf_toBytes_append : payloadOf (f.toBytes ++ payload) = payload :=
  List.drop_left' f.toBytes_length

end FrameHeader

section
variable {bytes : List Byte} (hshort : bytes.length < 32)
include hshort

theorem decodeFile_of_short : decodeFile bytes = .error .corruptHeader := if_pos hshort

theorem verifyRef_of_short : verifyRef bytes = .error .corruptHeader := if_pos hshort

end

theorem decodeFile_toBytes_append (f : FrameHeader) (payload : List Byte) : decodeFile (f.toBytes ++ payload) =
    if payload.length = f.payloadLength then .ok (f, payload) else .error .sizeMismatch := by
  simp [decodeFile, Config.headerLen]

/-- Settles O54: the header and the payload are parsed back, so the host's length check decides. -/
theorem decodeRecoversHeaderAndPayload : Obligations.DecodeRecoversHeaderAndPayload :=
  ⟨fun f payload hlen => (decodeFile_toBytes_append f payload).trans (if_pos hlen),
    fun f payload hlen => (decodeFile_toBytes_append f payload).trans (if_neg hlen),
    fun _ hshort => ⟨decodeFile_of_short hshort, verifyRef_of_short hshort⟩⟩

/-- Settles O55: the report is of the header's fields and the payload's length, both parsed back. -/
theorem referenceVerifyReportsWithoutComparing : Obligations.ReferenceVerifyReportsWithoutComparing := by
  intro f payload
  simp [verifyRef, Config.headerLen, FrameHeader.payloadLength, beq_eq_decide]

end Sys2Proof.Machine
end

section
/-! The frame a flow sends: START, the payload, FINISH, after a CLR and the four dimensions (R95, R99). Which of the two ends of
R107 it reaches, the length alone decides. -/

namespace Sys2Proof.Machine

open Sys2Proof

theorem Regs.started_fed_finished_result (r : Regs) (p : List Byte) :
    (r.started.fed p).finished.result = frameChecksum Config.params p := by
  rw [frameChecksum, crc32, absorbAll_append]
  rfl

/-- START, a payload and FINISH. -/
def frameCommands (p : List Byte) : List Instr := [.start] ++ payloadCommands p ++ [.finish]

/-- The registers a frame leaves: the finished checksum of a payload of the declared length, and otherwise SIZE_MISMATCH once
the bytes for which there was room are absorbed (R107). -/
def Regs.framed (r : Regs) (p : List Byte) : Regs :=
  if p.length = r.expect then (r.started.fed p).finished
  else (r.started.fed (p.take r.expect)).faulted .sizeMismatch

section
variable {r : Regs} {p : List Byte}

theorem Regs.framed_of_length_eq (h : p.length = r.expect) : r.framed p = (r.started.fed p).finished := if_pos h

theorem Regs.framed_of_length_ne (h : p.length ≠ r.expect) :
    r.framed p = (r.started.fed (p.take r.expect)).faulted .sizeMismatch := if_neg h

theorem Regs.framed_result (h : p.length = r.expect) : (r.framed p).result = frameChecksum Config.params p := by
  rw [framed_of_length_eq h, started_fed_finished_result]

theorem Regs.started_fed_count (h : p.length ≤ r.expect) : (r.started.fed p).count.toNat = p.length := by
  have hroom : r.started.count.toNat + p.length ≤ r.started.expect := by simpa using h
  simpa using Regs.fed_count_toNat hroom

/-- A payload no longer than declared is absorbed, and FINISH finds it complete or short. -/
theorem frame_effect_of_le (hp : r.phase = .idle) (hle : p.length ≤ r.expect) :
    ∃ rsps, CommandsEffect (frameCommands p) r (r.framed p) rsps := by
  have hfeed : CommandsEffect ([.start] ++ payloadCommands p) r (r.started.fed p) _ :=
    (CommandsEffect.single (.started rfl hp)).append (payload_effect rfl (by simpa using hle))
  have hcount := Regs.started_fed_count hle
  by_cases heq : p.length = r.expect
  · rw [Regs.framed_of_length_eq heq]
    exact ⟨_, hfeed.append (.single (.finished rfl rfl ((Regs.complete_iff _).mpr (hcount.trans heq))))⟩
  · rw [Regs.framed_of_length_ne heq, List.take_of_length_le hle]
    exact ⟨_, hfeed.append (.single (.short rfl rfl ((Regs.not_complete_iff _).mpr (hcount ▸ heq))))⟩

/-- After a fault the rest of the frame is ignored (R113). -/
theorem rest_of_frame_ignored (hp : r.phase = .fault) (q : List Byte) :
    ∃ rsps, CommandsEffect (payloadCommands q ++ [.finish]) r r rsps := by
  refine ⟨_, .ignored hp fun i hi => ?_⟩
  rcases List.mem_append.mp hi with hi | hi
  · obtain ⟨b, -, rfl⟩ := List.mem_map.mp hi
    exact ⟨nofun, nofun⟩
  · rw [List.mem_singleton.mp hi]
    exact ⟨nofun, nofun⟩

/-- Of a longer payload the first surplus byte faults, and what follows it is ignored. -/
theorem frame_effect_of_gt (hp : r.phase = .idle) (hgt : r.expect < p.length) :
    ∃ rsps, CommandsEffect (frameCommands p) r (r.framed p) rsps := by
  have hlen : (p.take r.expect).length = r.expect := by rw [List.length_take]; omega
  have hsplit : frameCommands p = [.start] ++ payloadCommands (p.take r.expect) ++
      (.data p[r.expect] :: (payloadCommands (p.drop (r.expect + 1)) ++ [.finish])) := by
    conv_lhs => rw [← List.take_append_drop r.expect p, List.drop_eq_getElem_cons hgt]
    simp only [frameCommands, payloadCommands, List.map_append, List.map_cons, List.append_assoc, List.cons_append]
  rw [hsplit, Regs.framed_of_length_ne hgt.ne']
  obtain ⟨rsps, hrest⟩ := rest_of_frame_ignored (r := (r.started.fed (p.take r.expect)).faulted .sizeMismatch) rfl
    (p.drop (r.expect + 1))
  refine ⟨_, ((CommandsEffect.single (.started rfl hp)).append (payload_effect rfl ?room)).append
    (.cons (.surplus _ rfl rfl ((Regs.complete_iff _).mpr ?full)) hrest)⟩
  case room => simp [hlen]
  case full => exact (Regs.started_fed_count hlen.le).trans hlen

theorem frame_effect (hp : r.phase = .idle) : ∃ rsps, CommandsEffect (frameCommands p) r (r.framed p) rsps :=
  (Nat.lt_or_ge r.expect p.length).elim (frame_effect_of_gt hp) (frame_effect_of_le hp)

end

/-- CLR and SETDIMS, from any registers. -/
theorem clear_setdims_effect (r : Regs) (w h d b : Half) :
    CommandsEffect ([.clr] ++ setdims w h d b) r (Regs.reset.withDims w h d b) [0, 0, 0, 0, 0] :=
  (CommandsEffect.single (.cleared rfl)).append (setdims_effect w h d b rfl)

/-! ### What the host reads: the fields of STATUS (R24), the bytes of `RESULT` (R89) -/

@[simp] theorem statusPhase_status (r : Regs) : statusPhase r.status = r.phase.code := by
  have hphase := r.phase.code.isLt
  refine BitVec.eq_of_toNat_eq ?_
  rw [statusPhase, BitVec.extractLsb'_toNat, r.status_toNat, Nat.shiftRight_zero]
  omega

@[simp] theorem statusErr_status (r : Regs) : statusErr r.status = r.errcode.code := by
  have hphase := r.phase.code.isLt
  have herr := r.errcode.code.isLt
  refine BitVec.eq_of_toNat_eq ?_
  rw [statusErr, BitVec.extractLsb'_toNat, r.status_toNat, Nat.shiftRight_eq_div_pow]
  split <;> omega

@[simp] theorem statusMatch_status (r : Regs) : statusMatch r.status = r.matched := by
  have hphase := r.phase.code.isLt
  rw [statusMatch, BitVec.getLsbD, Nat.testBit_eq_decide_div_mod_eq, r.status_toNat]
  cases r.matched <;> simp <;> omega

/-- The responses to the four reads of the checksum: its bytes in file order. -/
def Regs.checksumResponses (r : Regs) : List Word := (leBytes 4 r.result).map fun b => b.setWidth 32

theorem checksumReads_effect {r : Regs} (hp : r.phase = .done) : CommandsEffect checksumReads r r r.checksumResponses :=
  .cons (.readByte 0 rfl hp) (.cons (.readByte 1 rfl hp) (.cons (.readByte 2 rfl hp) (.single (.readByte 3 rfl hp))))

theorem lastResponses_checksumReads (s : State) (r : Regs) :
    (lastResponses 4 (s.answers r r.checksumResponses)).map (fun rsp => rsp.setWidth 8) = leBytes 4 r.result := by
  rw [lastResponses_answers _ _ (by simp [Regs.checksumResponses]), Regs.checksumResponses, List.map_map]
  simp [Function.comp_def]

end Sys2Proof.Machine
end

section
/-! CKSUM_ENCODE (R95): the engine's verdict on the length, and the checksum put in place. -/

namespace Sys2Proof.Machine

open Sys2Proof

/-- The registers with the frame's dimensions declared. -/
def EncodeArgs.declared (a : EncodeArgs) : Regs := Regs.reset.withDims a.width a.height a.depth a.bytesPerVoxel

/-- The commands of CKSUM_ENCODE: CLR, the dimensions, the payload as a frame, RDST. -/
theorem encodeCommands_eq (a : EncodeArgs) : encodeCommands a =
    [.clr] ++ setdims a.width a.height a.depth a.bytesPerVoxel ++ frameCommands a.payload ++ [.rdst] := by
  simp [encodeCommands, frameCommands]

/-- The commands of CKSUM_ENCODE, from any state: a frame after a CLR, and its status last. -/
theorem issue_encodeCommands (a : EncodeArgs) (s : State) : ∃ t, issue (encodeCommands a) s = .next t ∧
    t.input = s.input ∧ t.regs = a.declared.framed a.payload ∧ lastResponse t = t.regs.status := by
  obtain ⟨rsps, hframe⟩ := frame_effect (r := a.declared) (p := a.payload) rfl
  have hissue := issue_of_effects
    (((clear_setdims_effect s.regs _ _ _ _).append hframe).append (.single (.readStatus rfl)))
  rw [← encodeCommands_eq] at hissue
  exact ⟨_, hissue, rfl, rfl, lastResponse_answers_snoc _ _ _ _⟩

/-- Settles O56: the frame after a CLR ends in one of the two ways of `Regs.framed`. -/
theorem encodeCommandsSucceedExactlyOnMatchingLength : Obligations.EncodeCommandsSucceedExactlyOnMatchingLength := by
  intro a s
  obtain ⟨t, hissue, hinput, hregs, -⟩ := issue_encodeCommands a s
  refine ⟨t, hissue, hinput, fun hlen => ?_, fun hlen => ?_⟩
  · rw [hregs, Regs.framed_result hlen, Regs.framed_of_length_eq hlen]
    exact ⟨rfl, rfl⟩
  · rw [hregs, Regs.framed_of_length_ne hlen]
    exact ⟨rfl, rfl, rfl⟩

/-- The checksum's four bytes written over a header's last field (R95). -/
theorem memWrite_checksum (f : FrameHeader) (v : BitVec 32) :
    memWrite f.toBytes Config.checksumOffset (leBytes 4 v) = { f with checksum := v }.toBytes := rfl

section
variable {a : EncodeArgs} {s t : State} (hissue : issue (encodeCommands a) s = .next t)
  (hst : lastResponse t = t.regs.status)
include hissue hst

theorem cksumEncode_of_done (hp : t.regs.phase = .done) : ∃ u, u.regs = Regs.reset ∧ u.input = t.input ∧
    cksumEncode a s = .next (u, .ok ((a.header t.regs.result).toBytes ++ a.payload)) := by
  have hphase : statusPhase (lastResponse t) ≠ 3 := by rw [hst, statusPhase_status, hp]; decide
  have hreads := issue_of_effects (checksumReads_effect hp)
  refine ⟨(t.answers t.regs t.regs.checksumResponses).answers Regs.reset [0], rfl, rfl, ?_⟩
  rw [cksumEncode, hissue, andThen_next, if_neg hphase, hreads, andThen_next,
    issue_of_effects (.single (.cleared rfl)), andThen_next, lastResponses_checksumReads, memWrite_checksum]
  rfl

theorem cksumEncode_of_size_fault (hp : t.regs.phase = .fault) (he : t.regs.errcode = .sizeMismatch) :
    cksumEncode a s = .next (t, .error .sizeMismatch) := by
  have hphase : statusPhase (lastResponse t) = 3 := by rw [hst, statusPhase_status, hp]; rfl
  have herr : statusErr (lastResponse t) = 3 := by rw [hst, statusErr_status, he]; rfl
  rw [cksumEncode, hissue, andThen_next, if_pos hphase, if_pos herr]

end

/-- Settles O57: the status read is that of `Regs.framed`, so it selects the branch. -/
theorem encodeFlowWritesTheChecksum : Obligations.EncodeFlowWritesTheChecksum := by
  intro a s
  obtain ⟨t, hissue, hinput, hregs, hst⟩ := issue_encodeCommands a s
  refine ⟨fun hlen => ?done, fun hlen => ⟨t, hinput, ?fault⟩⟩
  case done =>
    have hdone : t.regs.phase = .done := by rw [hregs, Regs.framed_of_length_eq hlen]; rfl
    obtain ⟨u, hreset, hinput', hrun⟩ := cksumEncode_of_done hissue hst hdone
    rw [hregs, Regs.framed_result hlen] at hrun
    exact ⟨u, hreset, hinput'.trans hinput, hrun⟩
  case fault =>
    rw [Regs.framed_of_length_ne hlen] at hregs
    exact cksumEncode_of_size_fault hissue hst (by rw [hregs]; rfl) (by rw [hregs]; rfl)

end Sys2Proof.Machine
end

section
/-! VERIFY_STRICT (R99) and the round trip with CKSUM_ENCODE (R100). -/

namespace Sys2Proof.Machine

open Sys2Proof

/-- The registers before START of a strict verify: the dimensions and the checksum that the header declares. -/
def FrameHeader.declared (f : FrameHeader) : Regs :=
  (Regs.reset.withDims f.width f.height f.depth f.bytesPerVoxel).withStored f.checksum

/-- What the host answers to a frame, from the registers before its START: a wrong length first, then a wrong checksum. -/
def Regs.verdict (r : Regs) (p : List Byte) (report : VerifyReport) : Except HostError StrictReport :=
  if p.length ≠ r.expect then .error .sizeMismatch
  else if frameChecksum Config.params p ≠ r.stored then .error .checksumMismatch
  else .ok { report := report, checksumOk := true }

section
variable {r : Regs} {p : List Byte} (report : VerifyReport)

theorem Regs.verdict_of_length_ne (hlen : p.length ≠ r.expect) : r.verdict p report = .error .sizeMismatch :=
  if_pos hlen

theorem Regs.verdict_of_checksum_ne (hlen : p.length = r.expect) (hck : frameChecksum Config.params p ≠ r.stored) :
    r.verdict p report = .error .checksumMismatch := (if_neg (not_not_intro hlen)).trans (if_pos hck)

theorem Regs.verdict_of_match (hlen : p.length = r.expect) (hck : frameChecksum Config.params p = r.stored) :
    r.verdict p report = .ok { report := report, checksumOk := true } :=
  (if_neg (not_not_intro hlen)).trans (if_neg (not_not_intro hck))

end

theorem strictVerdict_status_of_match {r : Regs} (report : VerifyReport) (hp : r.phase = .done)
    (hm : r.matched = true) : strictVerdict report r.status = .ok { report := report, checksumOk := true } := by
  simp [strictVerdict, hp, hm, Phase.code]

theorem strictVerdict_status_of_size_fault (report : VerifyReport) (r : Regs) :
    strictVerdict report (r.faulted .sizeMismatch).status = .error .sizeMismatch := by
  simp [strictVerdict, Phase.code, ErrCode.code]

theorem strictVerdict_status_of_checksum_fault (report : VerifyReport) (r : Regs) :
    strictVerdict report (r.faulted .checksumMismatch).status = .error .checksumMismatch := by
  simp [strictVerdict, Phase.code, ErrCode.code]

/-- CHECK after a frame leaves the status that gives the frame's verdict. -/
theorem check_effect_of_framed {r : Regs} (p : List Byte) (hn : r.nld = 4) : ∃ r' rsp,
    CommandEffect .check (r.framed p) r' rsp ∧ ∀ report, strictVerdict report r'.status = r.verdict p report := by
  by_cases hlen : p.length = r.expect
  · have hdone := Regs.framed_of_length_eq hlen
    have hresult := Regs.framed_result hlen
    rw [hdone] at hresult ⊢
    by_cases hck : frameChecksum Config.params p = r.stored
    · refine ⟨_, _, .confirmed rfl rfl hn (hresult.trans hck), fun report => ?_⟩
      rw [strictVerdict_status_of_match report rfl rfl, Regs.verdict_of_match report hlen hck]
    · refine ⟨_, _, .different rfl rfl hn (hresult ▸ hck), fun report => ?_⟩
      rw [strictVerdict_status_of_checksum_fault, Regs.verdict_of_checksum_ne report hlen hck]
  · rw [Regs.framed_of_length_ne hlen]
    refine ⟨_, _, .ignored rfl nofun nofun, fun report => ?_⟩
    rw [strictVerdict_status_of_size_fault, Regs.verdict_of_length_ne report hlen]

/-- The commands of VERIFY_STRICT on a file: CLR, the header's dimensions and checksum, the payload as a frame, CHECK, RDST. -/
theorem verifyCommands_toBytes_append (f : FrameHeader) (p : List Byte) : verifyCommands (f.toBytes ++ p) =
    [.clr] ++ setdims f.width f.height f.depth f.bytesPerVoxel ++ ldck f.checksum ++ frameCommands p ++
      [.check] ++ [.rdst] := by
  have hck : (memRead (f.toBytes ++ p) Config.checksumOffset 4).map Instr.ldckb = ldck f.checksum := by
    rw [Config.checksumOffset, f.memRead_toBytes_append, f.memRead_checksum]
    rfl
  rw [verifyCommands, hck]
  simp [frameCommands]

theorem issue_verifyCommands (f : FrameHeader) (p : List Byte) (s : State) :
    ∃ t, issue (verifyCommands (f.toBytes ++ p)) s = .next t ∧ t.input = s.input ∧
      ∀ report, strictVerdict report (lastResponse t) = f.declared.verdict p report := by
  obtain ⟨rsps, hframe⟩ := frame_effect (r := f.declared) (p := p) rfl
  obtain ⟨r, rsp, hcheck, hverdict⟩ := check_effect_of_framed (r := f.declared) p rfl
  have hissue := issue_of_effects
    (((((clear_setdims_effect s.regs _ _ _ _).append (ldck_effect f.checksum nofun rfl)).append hframe).append
      (.single hcheck)).append (.single (.readStatus rfl)))
  rw [← verifyCommands_toBytes_append] at hissue
  refine ⟨_, hissue, rfl, fun report => ?_⟩
  rw [lastResponse_answers_snoc, hverdict]

theorem verifyStrict_of_short {bytes : List Byte} (hshort : bytes.length < 32) (s : State) :
    verifyStrict bytes s = .next (s, .error .corruptHeader) := by
  rw [verifyStrict, verifyRef_of_short hshort]

theorem verifyStrict_toBytes_append (f : FrameHeader) (p : List Byte) (s : State) :
    ∃ t, t.regs = Regs.reset ∧ t.input = s.input ∧ verifyStrict (f.toBytes ++ p) s = .next (t, f.declared.verdict p
      { magicOk := decide (f.magic = Config.magic), sizeOk := decide (p.length = f.payloadLength)
        declaredChecksum := f.checksum }) := by
  obtain ⟨t, hissue, hinput, hverdict⟩ := issue_verifyCommands f p s
  refine ⟨t.answers Regs.reset [0], rfl, hinput, ?_⟩
  rw [verifyStrict, referenceVerifyReportsWithoutComparing f p]
  dsimp only
  rw [hissue, andThen_next, issue_of_effects (.single (.cleared rfl)), andThen_next, hverdict]
  rfl

/-- Settles O58: the verdict is that of `Regs.verdict`; where it carries a report the size is right. -/
theorem strictVerifyDecidesEveryFile : Obligations.StrictVerifyDecidesEveryFile := by
  refine ⟨fun f p s => ?_, fun _ s hshort => verifyStrict_of_short hshort s⟩
  obtain ⟨t, hreset, hinput, hrun⟩ := verifyStrict_toBytes_append f p s
  refine ⟨t, hreset, hinput, hrun.trans (congrArg (fun verdict => Host.Outcome.next (t, verdict)) ?_)⟩
  by_cases hlen : p.length = f.payloadLength
  · rw [decide_eq_true hlen]
    rfl
  · rw [Regs.verdict_of_length_ne _ hlen]
    exact (if_pos hlen).symm

/-- The header CKSUM_ENCODE writes: the payload's own checksum is in place. -/
def EncodeArgs.encodedHeader (a : EncodeArgs) : FrameHeader := a.header (frameChecksum Config.params a.payload)

/-- CKSUM_ENCODE writes one file. -/
theorem eq_file_of_cksumEncode {a : EncodeArgs} {s t : State} {file : List Byte}
    (hlen : a.payload.length = a.declaredLength) (hrun : cksumEncode a s = .next (t, .ok file)) :
    file = a.encodedHeader.toBytes ++ a.payload := by
  obtain ⟨_, -, -, hrun'⟩ := (encodeFlowWritesTheChecksum a s).1 hlen
  exact Except.ok.inj (Prod.mk.inj (Host.Outcome.next.inj (hrun.symm.trans hrun'))).2

/-- Settles O59: the file is a header that declares the payload's length and checksum, followed by the payload. -/
theorem strictVerifyAcceptsEncodedFiles : Obligations.StrictVerifyAcceptsEncodedFiles := by
  intro a s t v file hlen hencode
  obtain rfl := eq_file_of_cksumEncode hlen hencode
  have hdeclared : a.payload.length = a.encodedHeader.declared.expect := hlen
  refine ⟨?accepted, fun p hplen hck => ?altered⟩
  case accepted =>
    obtain ⟨u, -, -, hverify⟩ := verifyStrict_toBytes_append a.encodedHeader a.payload v
    rw [Regs.verdict_of_match _ hdeclared rfl] at hverify
    exact ⟨u, _, hverify, rfl, decide_eq_true rfl, decide_eq_true hlen⟩
  case altered =>
    obtain ⟨u, -, -, hverify⟩ := verifyStrict_toBytes_append a.encodedHeader p v
    rw [Regs.verdict_of_checksum_ne _ (hplen.trans hdeclared) hck] at hverify
    exact ⟨u, by rw [List.take_left' (FrameHeader.toBytes_length _), hverify]⟩

end Sys2Proof.Machine
end

section
/-! Which fault a word raises outside FAULT (60_exceptions.md R105 to R112): by `CommandEffect.fault_cases` a command raises its
fault of `commandFault` and no other, so the condition of each code is read off that definition. -/

namespace Sys2Proof.Machine

open Sys2Proof Sys2Proof.Claims

/-- The fault R111 (items 3 and 4) says a legal command raises outside FAULT. -/
def commandFault (i : Instr) (r : Regs) : Option ErrCode :=
  if r.phase ∉ legalPhases i then some .sequence else ownFault i r

theorem firstFault_of_decode {cw : Word} {i : Instr} (hd : decode cw = .ok i) (r : Regs) :
    firstFault cw r = commandFault i r := by
  simp only [firstFault, hd, commandFault]

theorem firstFault_of_illegal {cw : Word} {e : Illegal} (hd : decode cw = .error e) (r : Regs) :
    firstFault cw r = some .illegalCmd := by
  simp only [firstFault, hd]

theorem commandFault_of_legal {i : Instr} {r : Regs} (hl : r.phase ∈ legalPhases i) : commandFault i r = ownFault i r :=
  if_neg (not_not_intro hl)

theorem commandFault_of_not_legal {i : Instr} {r : Regs} (hl : r.phase ∉ legalPhases i) :
    commandFault i r = some .sequence := if_pos hl

theorem phase_mem_all (p : Phase) : p ∈ [Phase.idle, .run, .done, .fault] := by
  cases p <;> simp

/-- Outside FAULT, a command in a phase where R59 does not allow it meets its row of R106. -/
theorem misplaced_of_not_legal {i : Instr} {r : Regs} (hp : r.phase ≠ .fault) (hl : r.phase ∉ legalPhases i) :
    Misplaced i r := by
  cases i with
  | clr | rdst => exact absurd (phase_mem_all r.phase) hl
  | ldckb => exact absurd (phase_mem_of_not_fault hp) hl
  | setdim | start | data | finish | rdck | rdckb => exact fun h => hl (List.mem_singleton.mpr h)
  | check => exact .inl fun h => hl (List.mem_singleton.mpr h)

/-- SEQUENCE comes from the phase, or from the test of `NLD` that LDCKB and CHECK make first (R106). -/
theorem commandFault_eq_sequence_iff {i : Instr} {r : Regs} (hp : r.phase ≠ .fault) :
    commandFault i r = some .sequence ↔ Misplaced i r := by
  by_cases hl : r.phase ∈ legalPhases i
  · rw [commandFault_of_legal hl]
    cases i with
    | clr | rdst => simp [ownFault, Misplaced]
    | ldckb => simp [ownFault, Misplaced, Fin.ext_iff]
    | setdim | start | data | finish | rdck | rdckb => simp_all [ownFault, Misplaced, legalPhases]
    | check => simp_all [ownFault, Misplaced, legalPhases, Fin.ext_iff]
  · exact iff_of_true (commandFault_of_not_legal hl) (misplaced_of_not_legal hp hl)

theorem commandFault_eq_sizeMismatch_iff {i : Instr} {r : Regs} :
    commandFault i r = some .sizeMismatch ↔ r.phase = .run ∧
      (((∃ b, i = .data b) ∧ r.count.toNat = r.expect) ∨ (i = .finish ∧ r.count.toNat ≠ r.expect)) := by
  by_cases hl : r.phase ∈ legalPhases i
  · rw [commandFault_of_legal hl]
    cases i with
    | data | finish => simp_all [ownFault, legalPhases, Regs.expect]
    | check => simp [ownFault, ite_eq_iff]
    | clr | setdim | start | rdck | rdckb | ldckb | rdst => simp [ownFault]
  · rw [commandFault_of_not_legal hl]
    refine iff_of_false (by simp) ?_
    rintro ⟨hp, ⟨⟨_, rfl⟩, -⟩ | ⟨rfl, -⟩⟩ <;> exact hl (List.mem_singleton.mpr hp)

theorem commandFault_eq_checksumMismatch_iff {i : Instr} {r : Regs} :
    commandFault i r = some .checksumMismatch ↔
      i = .check ∧ r.phase = .done ∧ r.nld.val = 4 ∧ r.result ≠ r.stored := by
  by_cases hl : r.phase ∈ legalPhases i
  · rw [commandFault_of_legal hl]
    cases i with
    | check => simp_all [ownFault, legalPhases, ite_eq_iff]
    | clr | setdim | start | data | finish | rdck | rdckb | ldckb | rdst => simp [ownFault]
  · rw [commandFault_of_not_legal hl]
    refine iff_of_false (by simp) ?_
    rintro ⟨rfl, hp, -⟩
    exact hl (List.mem_singleton.mpr hp)

/-- Outside FAULT a command raises its fault of `commandFault`, and does not enter FAULT when it has none. -/
theorem CommandEffect.fault_cases {i : Instr} {r r' : Regs} {rsp : Word} (he : CommandEffect i r r' rsp)
    (hp : r.phase ≠ .fault) :
    (commandFault i r = none ∧ r'.phase ≠ .fault) ∨
    (∃ code, code ≠ .none ∧ commandFault i r = some code ∧ r' = r.faulted code ∧ rsp = 0) := by
  cases he with
  | ignored hf => exact absurd hf hp
  | misplaced _ hm => exact .inr ⟨_, by simp, (commandFault_eq_sequence_iff hp).mpr hm, rfl, rfl⟩
  | surplus x hi hr hc =>
    have hsize := commandFault_eq_sizeMismatch_iff.mpr ⟨hr, .inl ⟨⟨x, hi⟩, r.complete_iff.mp hc⟩⟩
    exact .inr ⟨_, by simp, hsize, rfl, rfl⟩
  | short hi hr hc =>
    have hsize := commandFault_eq_sizeMismatch_iff.mpr ⟨hr, .inr ⟨hi, r.not_complete_iff.mp hc⟩⟩
    exact .inr ⟨_, by simp, hsize, rfl, rfl⟩
  | different hi hr hn hne =>
    have hck := commandFault_eq_checksumMismatch_iff.mpr ⟨hi, hr, congrArg Fin.val hn, hne⟩
    exact .inr ⟨_, by simp, hck, rfl, rfl⟩
  | cleared hi =>
    subst hi
    exact .inl ⟨commandFault_of_legal (phase_mem_all _), by decide⟩
  | readStatus hi =>
    subst hi
    exact .inl ⟨commandFault_of_legal (phase_mem_all _), hp⟩
  | loadedByte x hi _ hn =>
    subst hi
    exact .inl ⟨(commandFault_of_legal (phase_mem_of_not_fault hp)).trans (if_neg (Fin.val_ne_of_ne hn)), hp⟩
  | started hi hr | loadedDim _ _ hi hr | readResult hi hr | readByte _ hi hr =>
    subst hi
    exact .inl ⟨commandFault_of_legal (List.mem_singleton.mpr hr), by simp [hr]⟩
  | absorbed x hi hr hc =>
    subst hi
    have hroom : ownFault (.data x) r = none := if_neg (r.not_complete_iff.mp hc)
    exact .inl ⟨(commandFault_of_legal (List.mem_singleton.mpr hr)).trans hroom, hp⟩
  | finished hi hr hc =>
    subst hi
    have hfull : ownFault .finish r = none := if_neg (not_not_intro (r.complete_iff.mp hc))
    exact .inl ⟨(commandFault_of_legal (List.mem_singleton.mpr hr)).trans hfull, by simp⟩
  | confirmed hi hr hn heq =>
    subst hi
    have hequal : ownFault .check r = none := by simp [ownFault, hn, heq]
    exact .inl ⟨(commandFault_of_legal (List.mem_singleton.mpr hr)).trans hequal, hp⟩

/-- A fault state shows its code. -/
theorem next_faulted_inj {s : State} {r : Regs} {code code' : ErrCode} :
    (.next (s.answer (r.faulted code) 0) : Host.Outcome State Fault Refusal) = .next (s.answer (r.faulted code') 0) ↔
      code = code' :=
  ⟨fun h => congrArg (·.regs.errcode) (Host.Outcome.next.inj h), fun h => by rw [h]⟩

/-- Outside FAULT a command answers the fault state of a code exactly when that code is its fault of `commandFault`. -/
theorem exec_eq_faulted_iff {i : Instr} {s : State} (hp : s.regs.phase ≠ .fault) (code : ErrCode) :
    exec i s = .next (s.answer (s.regs.faulted code) 0) ↔ commandFault i s.regs = some code := by
  obtain ⟨r, rsp, hx, he⟩ := exec_effect i s
  rw [hx]
  rcases he.fault_cases hp with ⟨hnone, hnf⟩ | ⟨code', -, hcode, rfl, rfl⟩
  · refine iff_of_false (fun h => hnf ?_) (by simp [hnone])
    exact congrArg (·.regs.phase) (Host.Outcome.next.inj h)
  · rw [hcode, Option.some.injEq]
    exact next_faulted_inj

theorem performWord_of_illegal {cw : Word} {e : Illegal} (hd : decode cw = .error e) (s : State) :
    performWord cw s = illegalWord s := by
  simp only [performWord, hd]

/-- Outside FAULT a word raises the fault that R111 names, with R112's state, and enters FAULT for no other reason. -/
theorem step_fault_cases {s : State} {cw : Word} {rest : List Event} (hin : s.input = .command cw :: rest)
    (hp : s.regs.phase ≠ .fault) :
    (firstFault cw s.regs = none ∧ ∃ t, step s = .next t ∧ t.regs.phase ≠ .fault) ∨
    (∃ code, code ≠ .none ∧ firstFault cw s.regs = some code ∧
      step s = .next ((s.withInput rest).answer (s.regs.faulted code) 0)) := by
  rw [step_of_command hin]
  cases hd : decode cw with
  | error e =>
    rw [performWord_of_illegal hd]
    exact .inr ⟨_, by simp, firstFault_of_illegal hd s.regs, if_neg hp⟩
  | ok i =>
    obtain ⟨r, rsp, hx, he⟩ := exec_effect i (s.withInput rest)
    rw [performWord_of_decode hd, firstFault_of_decode hd, hx]
    rcases he.fault_cases hp with ⟨hnone, hnf⟩ | ⟨code, hne, hcode, rfl, rfl⟩
    · exact .inl ⟨hnone, _, rfl, hnf⟩
    · exact .inr ⟨code, hne, hcode, rfl⟩

/-- Settles O23: the step entered FAULT, so it raised a code. -/
theorem faultEntryWritesOnlyPhaseAndErrcode : Obligations.FaultEntryWritesOnlyPhaseAndErrcode := by
  intro s t cw rest hin hp hs hf
  rcases step_fault_cases hin hp with ⟨-, u, hs', hnf⟩ | ⟨code, hne, -, hs'⟩
  · obtain rfl := Host.Outcome.next.inj (hs'.symm.trans hs)
    exact absurd hf hnf
  · exact ⟨code, hne, Host.Outcome.next.inj (hs.symm.trans hs')⟩

/-- Settles O24, by `step_fault_cases`. -/
theorem firstFaultInPriorityOrderIsRaised : Obligations.FirstFaultInPriorityOrderIsRaised := by
  intro s cw rest hin hp
  rcases step_fault_cases hin hp with ⟨hnone, ht⟩ | ⟨code, -, hcode, hs⟩
  · rw [hnone]
    exact ht
  · rw [hcode]
    exact hs

theorem ne_idle_iff {p : Phase} (hp : p ≠ .fault) : p ≠ .idle ↔ p = .run ∨ p = .done := by
  cases p <;> simp_all

theorem ne_run_iff {p : Phase} (hp : p ≠ .fault) : p ≠ .run ↔ p = .idle ∨ p = .done := by
  cases p <;> simp_all

theorem ne_done_iff {p : Phase} (hp : p ≠ .fault) : p ≠ .done ↔ p = .idle ∨ p = .run := by
  cases p <;> simp_all

/-- Settles O25: outside FAULT, the phases of the table are those where the command is not legal. -/
theorem sequenceRaisedExactlyAsTabled : Obligations.SequenceRaisedExactlyAsTabled := by
  intro i s hp
  refine (exec_eq_faulted_iff hp .sequence).trans ((commandFault_eq_sequence_iff hp).trans ?_)
  cases i with
  | clr | rdst => exact Iff.rfl
  | setdim | start => exact ne_idle_iff hp
  | data | finish => exact ne_run_iff hp
  | rdck | rdckb => exact ne_done_iff hp
  | ldckb => exact Fin.ext_iff
  | check =>
    by_cases hd : s.regs.phase = .done
    · simp [Misplaced, hd, Fin.ext_iff]
    · exact iff_of_true (.inl hd) (((ne_done_iff hp).mp hd).imp_right .inl)

/-- Settles O26, by `commandFault_eq_sizeMismatch_iff`. -/
theorem sizeMismatchRaisedExactlyOnWrongCount : Obligations.SizeMismatchRaisedExactlyOnWrongCount := fun _ _ hp =>
  (exec_eq_faulted_iff hp .sizeMismatch).trans commandFault_eq_sizeMismatch_iff

/-- Settles O27, by `commandFault_eq_checksumMismatch_iff`. -/
theorem checksumMismatchRaisedOnlyByCheck : Obligations.ChecksumMismatchRaisedOnlyByCheck := fun _ _ hp =>
  (exec_eq_faulted_iff hp .checksumMismatch).trans commandFault_eq_checksumMismatch_iff

/-- No command raises ILLEGAL_CMD. -/
theorem commandFault_ne_illegalCmd (i : Instr) (r : Regs) : commandFault i r ≠ some .illegalCmd := by
  by_cases hl : r.phase ∈ legalPhases i
  · rw [commandFault_of_legal hl]
    cases i <;> simp [ownFault, ite_eq_iff]
  · simp [commandFault_of_not_legal hl]

theorem firstFault_eq_illegalCmd_iff {cw : Word} {r : Regs} :
    firstFault cw r = some .illegalCmd ↔ ∃ e, decode cw = .error e := by
  cases hd : decode cw with
  | error e => simp [firstFault_of_illegal hd]
  | ok i => simp [firstFault_of_decode hd, commandFault_ne_illegalCmd]

/-- Settles O19: an illegal word raises ILLEGAL_CMD, and a legal one another code or none. -/
theorem illegalWordRaisesIllegalCmd : Obligations.IllegalWordRaisesIllegalCmd := by
  intro s cw rest hin hp
  rw [← firstFault_eq_illegalCmd_iff (r := s.regs)]
  rcases step_fault_cases hin hp with ⟨hnone, t, hs, hnf⟩ | ⟨code, -, hcode, hs⟩
  · rw [hnone, hs]
    refine iff_of_false (by simp) fun h => hnf ?_
    rw [Host.Outcome.next.inj h]
  · rw [hcode, hs, Option.some.injEq]
    exact next_faulted_inj.symm

end Sys2Proof.Machine
end

section
/-! Phase FAULT (60_exceptions.md R113 to R115): only CLR changes a register, and only RDST responds other than 0. -/

namespace Sys2Proof.Machine

open Sys2Proof Sys2Proof.Claims

theorem responseInFault_of_rdst {cw : Word} (hd : decode cw = .ok .rdst) (r : Regs) : responseInFault r cw = r.status := by
  simp only [responseInFault, hd]

theorem responseInFault_of_not_rdst {cw : Word} (hd : decode cw ≠ .ok .rdst) (r : Regs) : responseInFault r cw = 0 := by
  unfold responseInFault
  split
  · contradiction
  · rfl

/-- In FAULT a word that is not CLR leaves every register as it is (R113). -/
theorem performWord_in_fault {cw : Word} {s : State} (hp : s.regs.phase = .fault) (hclr : decode cw ≠ .ok .clr) :
    performWord cw s = .next (s.answer s.regs (responseInFault s.regs cw)) := by
  by_cases hr : decode cw = .ok .rdst
  · rw [performWord_of_decode hr, responseInFault_of_rdst hr]
    exact exec_of_effect (.readStatus rfl)
  · rw [responseInFault_of_not_rdst hr]
    cases hd : decode cw with
    | error e =>
      rw [performWord_of_illegal hd]
      exact if_pos hp
    | ok i =>
      rw [performWord_of_decode hd]
      exact exec_of_in_fault hp (fun h => hclr (hd.trans (by rw [h]))) (fun h => hr (hd.trans (by rw [h])))

/-- Settles O20: CLR and RDST by their effects, every other word by `performWord_in_fault`. -/
theorem faultPhasePerformsOnlyClrAndRdst : Obligations.FaultPhasePerformsOnlyClrAndRdst := by
  intro s cw rest hin hp
  rw [step_of_command hin]
  refine ⟨fun hclr hrdst => ?_, fun hclr => ?_, fun hrdst => ?_⟩
  · rw [performWord_in_fault (s := s.withInput rest) hp hclr, responseInFault_of_not_rdst hrdst]
    rfl
  · rw [performWord_of_decode hclr]
    exact exec_of_effect (.cleared rfl)
  · rw [performWord_of_decode hrdst]
    exact exec_of_effect (.readStatus rfl)

/-- Settles O29, by induction on the words: each finds the registers as the one before it did. -/
theorem firstFaultStaysUntilClr : Obligations.FirstFaultStaysUntilClr := by
  intro ws s hp hclr
  induction ws generalizing s with
  | nil => simp
  | cons w ws ih =>
    obtain ⟨hw, hws⟩ := List.forall_mem_cons.mp hclr
    rw [presentAll_cons, performWord_in_fault hp hw, andThen_next, ih (s.answer s.regs _) hp hws]
    simp [State.answer]

end Sys2Proof.Machine
end

section
/-! Waiting, and several machines (60_exceptions.md R120, R122): a step at one index is that machine's own step and leaves the
others alone. -/

namespace Sys2Proof.Machine

open Sys2Proof

/-- Settles O32: an empty stream selects `holdState`, which answers the state itself. -/
theorem emptyStreamHoldsState : Obligations.EmptyStreamHoldsState := by
  intro s hin
  rw [step, hin, holdState]

/-- A scheduled step moves the machine it names by its own step, and no other (R120). -/
theorem System.stepAt_spec (k : Nat) (sys : System) :
    ∃ sys', System.stepAt k sys = .next sys' ∧ sys'.length = sys.length ∧
      (∀ s, sys[k]? = some s → ∃ t, step s = .next t ∧ sys'[k]? = some t) ∧
      ∀ j, j ≠ k → sys'[j]? = sys[j]? := by
  cases hk : sys[k]? with
  | none => exact ⟨sys, by simp only [System.stepAt, hk], rfl, by simp, fun _ _ => rfl⟩
  | some s =>
    obtain ⟨t, hs⟩ := stepIsTotal s
    refine ⟨sys.set k t, by simp only [System.stepAt, hk, hs, andThen_next], List.length_set, ?_,
      fun j hj => List.getElem?_set_ne hj.symm⟩
    rintro _ ⟨⟩
    exact ⟨t, hs, List.getElem?_set_self (List.getElem?_eq_some_iff.mp hk).1⟩

/-- Settles O60, by induction on the schedule: its first step is the first step of the machine it names. -/
theorem instancesDoNotInfluenceEachOther : Obligations.InstancesDoNotInfluenceEachOther := by
  intro schedule sys
  induction schedule generalizing sys with
  | nil => exact ⟨sys, rfl, rfl, fun k s hk => ⟨s, rfl, hk⟩⟩
  | cons k ks ih =>
    obtain ⟨sys₁, hstep, hlen₁, hown, hother⟩ := System.stepAt_spec k sys
    obtain ⟨sys₂, hrun, hlen₂, halone⟩ := ih sys₁
    refine ⟨sys₂, by rw [System.runSchedule, hstep, andThen_next, hrun], hlen₂.trans hlen₁, fun j s hj => ?_⟩
    by_cases hjk : j = k
    · subst hjk
      obtain ⟨t, hs, ht⟩ := hown s hj
      rw [List.count_cons_self, runSteps, hs, andThen_next]
      exact halone j t ht
    · rw [List.count_cons_of_ne (Ne.symm hjk)]
      exact halone j s ((hother j hjk).trans hj)

end Sys2Proof.Machine
end

section
/-! Hardware reset (70_reset_and_hazards.md R123, R124): an event of its own, taken in any phase, and told from CLR only by the
response it does not give. -/

namespace Sys2Proof.Machine

open Sys2Proof

/-- No condition on the phase: reset may come in the middle of a frame and in FAULT (R123). -/
theorem step_of_reset {s : State} {rest : List Event} (hin : s.input = .reset :: rest) :
    step s = .next { s with regs := Regs.reset, input := rest } := by
  simp only [step, hin, performEvent, hardwareReset, State.withInput]

/-- Settles O30: reset answers by `step_of_reset`, and CLR by its effect `cleared`, with the same registers. -/
theorem hardwareResetEqualsClr : Obligations.HardwareResetEqualsClr := by
  intro s rest hin
  have hreset := step_of_reset hin
  have hclr : exec .clr s = .next (s.answer Regs.reset 0) := exec_of_effect (.cleared rfl)
  exact ⟨hreset, _, _, hreset, hclr, rfl, rfl⟩

end Sys2Proof.Machine
end
